-- ==== Sys2Proof/Word.lean ====
section
/-! DEFINITION. The container of a storage word, and the symbols of a rendered string.

The spec's numbers are naturals (00_scope.md R11, R12). What is stored or moved on a data line is a number of at most
64 bits, whichever of the four capacities the block is built with, so it is held in a 64-bit vector, zero-extended. -/

namespace Sys2Proof

/-- A `CAPACITY`-bit or `RCAP`-bit unsigned number, zero-extended to 64 bits (00_scope.md R5, R6: both are at most 64). -/
abbrev Word := BitVec 64

/-- The two symbols a rendering is made of (43_search_render.md R131). -/
inductive Symbol where
  | zero
  | one
deriving DecidableEq, Repr

end Sys2Proof
end

