-- ==== Sys2Proof/Config.lean ====
section
/-! DEFINITION. What the builder of the block fixes (00_scope.md R5 to R9), and the values the spec leaves open.

The host's fixed types give `State` and `step` no argument, so a machine carries its build parameters in a field of
`State` that no step changes (notes/assumptions/1.md): what is stated for every state holds for every build. -/

namespace Sys2Proof

/-- The legal bit counts of `CAPACITY` and of `RCAP`: 8, 16, 32, 64 (00_scope.md R5, R6). -/
inductive Capacity where
  | c8
  | c16
  | c32
  | c64
deriving DecidableEq, Repr

/-- The capacity as a number of bits. -/
def Capacity.bits : Capacity → Nat
  | .c8 => 8
  | .c16 => 16
  | .c32 => 32
  | .c64 => 64

/-- The build parameters (00_scope.md R5 to R8). `TRANSPORT` (R9) is open and no rule reads it. -/
structure Params where
  /-- `CAPACITY`, the bits of one storage word (R5). -/
  capacity : Capacity
  /-- `RCAP`, the bits of the destination of the chunked read (R6). -/
  rcap : Capacity
  /-- `NCHUNK`, the words of the chunk memory, 1 to 127 (R7, checked by `Params.WellFormed`). -/
  nchunk : Nat
  /-- `HAS_CSET`, whether the chunked insert exists (R8). -/
  hasCset : Bool
deriving DecidableEq, Repr

/-- The build `State.reset` stands for: `HAS_CSET` at the spec's default (R8); the other three, to which the spec gives
no default, as in the chunked vectors of 95_test_vectors.md. DESIGN CHOICE, unsafe: notes/assumptions/2.md. -/
def Params.standard : Params := ⟨.c8, .c16, 4, true⟩

/-- FREE VALUE. The content of chunk `j` of a memory nobody has written there since power-up number `seed`
(10_state.md R31, 70_reset_and_hazards.md R192). No body: nothing can be proved of its value. notes/assumptions/3.md. -/
opaque Config.powerUpWord (seed j : Nat) : Word

/-- FREE VALUE. Whether, of the abandoned command number `draw`, the write to chunk `j` was made before reset stopped
it (70_reset_and_hazards.md R191). No body. notes/assumptions/4.md. -/
opaque Config.abandonedWriteLands (draw j : Nat) : Bool

end Sys2Proof
end

