-- ==== Sys2Proof/Syntax.lean ====
section
/-! DEFINITION. The operations (one constructor per row of spec/opcode_table.json) and the command as the host presents it.

An `Instr` is a decoded control word: exactly the control fields its row uses (30_encoding.md R70). The data operands
are no part of the control word; they stand beside it in `Command` (R66). -/

namespace Sys2Proof

/-- The whole repertoire (30_encoding.md R70). Fields are the unsigned, unscaled numbers of R63 to R65. -/
inductive Instr where
  | bsize
  | get (width indent : Nat)
  | set (width indent : Nat)
  | getb (width n indent : Nat)
  | setb (width n indent : Nat)
  | idx (width : Nat)
  | str
  | cloc (n indent : Nat)
  | cget (width n indent : Nat)
  | cset (width n indent : Nat)
  | cstr (n : Nat)
deriving DecidableEq, Repr

/-- The four fields of a control word (30_encoding.md R61). -/
structure CtlFields where
  op : Nat
  width : Nat
  n : Nat
  indent : Nat
deriving DecidableEq, Repr

/-- Why a control word is no command (30_encoding.md R72). All three are answered with `ILLEGAL_OP`. -/
inductive DecodeError where
  /-- `op` is 0 or 12 to 15. -/
  | reservedOp (op : Nat)
  /-- `op` is 10 and the block was built without `CSET`. -/
  | csetAbsent
  /-- A control field the operation does not use is not zero. -/
  | unusedFieldNonzero (op : Nat)
deriving DecidableEq, Repr

/-- A command: the control word and the data operands, all presented together (30_encoding.md R60, R66).
The operand lanes are read through `Machine/Operands.lean`, at the widths R66 gives them. -/
structure Command where
  ctl : BitVec 32
  bits : Word
  value : Word
  /-- Element 0 first (R75). -/
  seq : List Word
  cvalue : Word
deriving DecidableEq, Repr

/-- The command port with no command on it. Its control word is zero, which is not a command (92_eei_decisions.md D4;
notes/assumptions/13.md). -/
def Command.idle : Command := ⟨0#32, 0#64, 0#64, [], 0#64⟩

end Sys2Proof
end

