-- ==== Sys2Proof/WellFormed.lean ====
section
/-! DEFINITION. Which instructions a control word can express, and which builds are legal. -/

namespace Sys2Proof

/-- `width` is a 7-bit field (30_encoding.md R61, R63). -/
abbrev widthFits (width : Nat) : Bool := decide (width < 2 ^ 7)

/-- `n` is a 7-bit field (30_encoding.md R61, R64). -/
abbrev countFits (n : Nat) : Bool := decide (n < 2 ^ 7)

/-- `indent` is a 14-bit field (30_encoding.md R61, R65). -/
abbrev indentFits (indent : Nat) : Bool := decide (indent < 2 ^ 14)

/-- Every control field the instruction has fits its place in the control word (30_encoding.md R61). -/
def Instr.wellFormed : Instr → Bool
  | .bsize => true
  | .get width indent => widthFits width && indentFits indent
  | .set width indent => widthFits width && indentFits indent
  | .getb width n indent => widthFits width && countFits n && indentFits indent
  | .setb width n indent => widthFits width && countFits n && indentFits indent
  | .idx width => widthFits width
  | .str => true
  | .cloc n indent => countFits n && indentFits indent
  | .cget width n indent => widthFits width && countFits n && indentFits indent
  | .cset width n indent => widthFits width && countFits n && indentFits indent
  | .cstr n => countFits n

abbrev Instr.WellFormed (i : Instr) : Prop := i.wellFormed = true

/-- Whether the build has the operation: all of them, but `CSET` only with `HAS_CSET` (30_encoding.md R71). -/
def Instr.present (hasCset : Bool) : Instr → Bool
  | .cset _ _ _ => hasCset
  | .bsize | .get _ _ | .set _ _ | .getb _ _ _ | .setb _ _ _ | .idx _ | .str | .cloc _ _ | .cget _ _ _ | .cstr _ => true

/-- The legal builds: `1 ≤ NCHUNK ≤ 127` (00_scope.md R7); the other parameters are legal by their types. -/
abbrev Params.WellFormed (p : Params) : Prop := 1 ≤ p.nchunk ∧ p.nchunk ≤ 127

end Sys2Proof
end

