-- ==== Sys2Proof/Decode.lean ====
section
/-! DEFINITION. The control word, both ways (30_encoding.md R61, R71 to R73). -/

namespace Sys2Proof

/-- `ctl[hi:lo]` as a number (00_scope.md R10). -/
def ctlField (w : BitVec 32) (hi lo : Nat) : Nat := w.toNat / 2 ^ lo % 2 ^ (hi - lo + 1)

/-- The four fields of a control word (30_encoding.md R61). -/
def ctlFields (w : BitVec 32) : CtlFields :=
  ⟨ctlField w 31 28, ctlField w 27 21, ctlField w 20 14, ctlField w 13 0⟩

/-- The row of 30_encoding.md R71 the fields select, or the reason of R72 why none. -/
def decodeFields (hasCset : Bool) (f : CtlFields) : Except DecodeError Instr :=
  match f.op with
  | 1 => if f.width = 0 ∧ f.n = 0 ∧ f.indent = 0 then .ok .bsize else .error (.unusedFieldNonzero 1)
  | 2 => if f.n = 0 then .ok (.get f.width f.indent) else .error (.unusedFieldNonzero 2)
  | 3 => if f.n = 0 then .ok (.set f.width f.indent) else .error (.unusedFieldNonzero 3)
  | 4 => .ok (.getb f.width f.n f.indent)
  | 5 => .ok (.setb f.width f.n f.indent)
  | 6 => if f.n = 0 ∧ f.indent = 0 then .ok (.idx f.width) else .error (.unusedFieldNonzero 6)
  | 7 => if f.width = 0 ∧ f.n = 0 ∧ f.indent = 0 then .ok .str else .error (.unusedFieldNonzero 7)
  | 8 => if f.width = 0 then .ok (.cloc f.n f.indent) else .error (.unusedFieldNonzero 8)
  | 9 => .ok (.cget f.width f.n f.indent)
  | 10 => if hasCset then .ok (.cset f.width f.n f.indent) else .error .csetAbsent
  | 11 => if f.width = 0 ∧ f.indent = 0 then .ok (.cstr f.n) else .error (.unusedFieldNonzero 11)
  | op => .error (.reservedOp op)

/-- Decoding is total (30_encoding.md R73). -/
def decode (hasCset : Bool) (w : BitVec 32) : Except DecodeError Instr :=
  decodeFields hasCset (ctlFields w)

/-- The operation code (30_encoding.md R70). -/
def Instr.opcode : Instr → Nat
  | .bsize => 1
  | .get _ _ => 2
  | .set _ _ => 3
  | .getb _ _ _ => 4
  | .setb _ _ _ => 5
  | .idx _ => 6
  | .str => 7
  | .cloc _ _ => 8
  | .cget _ _ _ => 9
  | .cset _ _ _ => 10
  | .cstr _ => 11

/-- The fields of the control word of an instruction; a field it does not use is 0 (30_encoding.md R71). -/
def Instr.fields : Instr → CtlFields
  | .bsize => ⟨1, 0, 0, 0⟩
  | .get width indent => ⟨2, width, 0, indent⟩
  | .set width indent => ⟨3, width, 0, indent⟩
  | .getb width n indent => ⟨4, width, n, indent⟩
  | .setb width n indent => ⟨5, width, n, indent⟩
  | .idx width => ⟨6, width, 0, 0⟩
  | .str => ⟨7, 0, 0, 0⟩
  | .cloc n indent => ⟨8, 0, n, indent⟩
  | .cget width n indent => ⟨9, width, n, indent⟩
  | .cset width n indent => ⟨10, width, n, indent⟩
  | .cstr n => ⟨11, 0, n, 0⟩

/-- `ctl = (op << 28) | (width << 21) | (n << 14) | indent` (30_encoding.md R61). -/
def packCtl (f : CtlFields) : BitVec 32 :=
  BitVec.ofNat 32 ((f.op <<< 28) ||| (f.width <<< 21) ||| (f.n <<< 14) ||| f.indent)

/-- The control word of an instruction. -/
def encode (i : Instr) : BitVec 32 := packCtl i.fields

/-- The decoder on a word numbered as spec/opcode_table.json numbers it, in the build with `HAS_CSET` (the spec's
default, 00_scope.md R8). A control word is 32 bits and there is no other length (30_encoding.md R60, R74). -/
def decodeTableWord (nbits w : Nat) : Option Instr :=
  if nbits ≤ 32 then (decode true (BitVec.ofNat 32 (w % 2 ^ nbits))).toOption else none

end Sys2Proof
end

