-- ==== Sys2Proof/Machine/State.lean ====
section
/-! DEFINITION. The state: the chunk memory, which is the only state the machine has between commands
(10_state.md R24), the command in flight (R25), and the two ends of the host's interface (what the host will do next,
what it has been answered). -/

namespace Sys2Proof.Machine

/-- The chunk memory `CH` (10_state.md R24, 20_memory.md R40): the words written since power-up, keyed by chunk index,
indices strictly rising. A word not listed holds the free value `Config.powerUpWord seed j` (10_state.md R31).
Chunk words, not bytes, are the addressable unit (20_memory.md R44; notes/assumptions/5.md). -/
structure Memory where
  /-- MODEL'S OWN: which power-up the unwritten words come from; no rule of the spec reads it. -/
  seed : Nat
  cells : List (Nat × Word)
deriving DecidableEq, Repr

/-- One access at the memory port (20_memory.md R45): a whole chunk read, or a whole chunk written. -/
inductive Access where
  | read (j : Nat)
  | write (j : Nat) (v : Word)
deriving DecidableEq, Repr

/-- The payload of an `OK` response (30_encoding.md R69). -/
inductive Payload where
  /-- `BSIZE` -/
  | size (v : BitVec 7)
  /-- `GET`, `SET`, `SETB` -/
  | res (v : Word)
  /-- `GETB`, element 0 first -/
  | seqOut (vs : List Word)
  /-- `IDX` -/
  | search (found : Bool) (index : BitVec 7)
  /-- `STR`, `CSTR`, leftmost symbol first -/
  | str (cs : List Symbol)
  /-- `CLOC` -/
  | chunk (v : BitVec 7)
  /-- `CGET` -/
  | cres (v : Word)
  /-- `CSET` has no payload -/
  | done
deriving DecidableEq, Repr

/-- The error kinds (60_exceptions.md R160 to R163). -/
inductive ErrorKind where
  | rangeError
  | overflowError
  | badOperand
  | illegalOp
deriving DecidableEq, Repr

/-- A response carries a payload exactly when its status is `OK` (30_encoding.md R67). -/
inductive Response where
  | ok (payload : Payload)
  | error (kind : ErrorKind)
deriving DecidableEq, Repr

/-- What the outside does to the machine (10_state.md R26), each between two commands but the last. -/
inductive HostMove where
  /-- The host issues a command (30_encoding.md R60). -/
  | command (c : Command)
  /-- The host writes chunk `j` (10_state.md R24). -/
  | write (j : Nat) (v : Word)
  /-- Reset with no command in flight (70_reset_and_hazards.md R190). -/
  | reset
  /-- The host issues a command and reset arrives before its response (70_reset_and_hazards.md R191). -/
  | commandThenReset (c : Command)
deriving DecidableEq, Repr

/-- The machine. There are no registers, no program counter, no flags and no control registers
(10_state.md R20 to R23), so no field stands for one. -/
structure State where
  /-- The build parameters (10_state.md R23): no step changes them. -/
  params : Params
  /-- The chunk memory `CH` (10_state.md R24). -/
  ch : Memory
  /-- The command in flight (10_state.md R25); `Command.idle` between commands. -/
  port : Command
  /-- The responses the host has received, oldest first (70_reset_and_hazards.md R203). No command reads it. -/
  responses : List Response
  /-- MODEL'S OWN: the chunk accesses of the last command executed, in order (20_memory.md R46). No command reads it. -/
  accesses : List Access
  /-- The environment: what the outside does next, first move first. Any host is some list. -/
  inbox : List HostMove
  /-- MODEL'S OWN: how many commands reset has abandoned; numbers the free values of R191. -/
  draws : Nat
deriving DecidableEq, Repr

/-- Why the machine stops with a fault. -/
inductive Fault where
  /-- Raised by a host write to a chunk index outside `0..NCHUNK-1`, an address the spec says does not exist
  (20_memory.md R40). No command raises it. Safe. -/
  | noSuchChunk (j : Nat)
deriving DecidableEq, Repr

/-- Why the machine refuses. -/
inductive Refusal where
  /-- Raised by an arm of `exec` that has no meaning yet. There is none in this model. Safe. -/
  | notModelled (mnemonic : String)
deriving DecidableEq, Repr

/-- The machine of build `p` right after power-up and reset: idle, nothing in the chunk memory written
(70_reset_and_hazards.md R190, R192), and an environment that does nothing. -/
def State.resetWith (p : Params) : State where
  params := p
  ch := ⟨0, []⟩
  port := Command.idle
  responses := []
  accesses := []
  inbox := []
  draws := 0

/-- The machine right after reset, in the build `Params.standard` (notes/assumptions/2.md). -/
def State.reset : State := State.resetWith Params.standard

end Sys2Proof.Machine
end

