-- ==== Sys2Proof/Machine/Operands.lean ====
section
/-! DEFINITION. The width and mask primitives (40_primitives.md R90 to R95), all on naturals, and the operand forms:
how an operation reads a data lane of the command in flight, and how it uses `indent`. -/

namespace Sys2Proof.Machine

/-- `BitSize(v)` (40_primitives.md R90). -/
def bitSize (v : Nat) : Nat := if v = 0 then 1 else Nat.log2 v + 1

/-- `LowMask(w)` (40_primitives.md R91). -/
def lowMask (w : Nat) : Nat := 2 ^ w - 1

/-- `Norm(k)` of a natural, in a word of `C` bits (40_primitives.md R92). -/
def normIndent (C k : Nat) : Nat := k % C

/-- `trunc_W(a)` (00_scope.md R12). -/
def truncBits (W a : Nat) : Nat := a % 2 ^ W

/-- `~_W a`, the complement within `W` bits (00_scope.md R12). -/
def complBits (W a : Nat) : Nat := 2 ^ W - 1 - a

/-- `FieldMask(i, w)` (40_primitives.md R93). -/
def fieldMask (i w : Nat) : Nat := lowMask w <<< i

/-- `Extract(b, i, w)` (40_primitives.md R94). -/
def extractField (b i w : Nat) : Nat := (b >>> i) &&& lowMask w

/-- `Insert(b, i, w, v)` in a word of `C` bits (40_primitives.md R95). -/
def insertField (C b i w v : Nat) : Nat :=
  (b &&& complBits C (fieldMask i w)) ||| ((v <<< i) &&& fieldMask i w)

/-- A number on a data line; every number an operation answers is below `2^64` (`CAPACITY` and `RCAP` are at most 64). -/
def toWord (a : Nat) : Word := BitVec.ofNat 64 a

/-- `CAPACITY` of the machine (00_scope.md R5). -/
abbrev State.cap (s : State) : Nat := s.params.capacity.bits

/-- `RCAP` of the machine (00_scope.md R6). -/
abbrev State.rcap (s : State) : Nat := s.params.rcap.bits

/-- The operand `bits`: `CAPACITY` wires (30_encoding.md R66). -/
def State.bitsOperand (s : State) : Nat := truncBits s.cap s.port.bits.toNat

/-- The operand `value`: `CAPACITY` wires (30_encoding.md R66). -/
def State.valueOperand (s : State) : Nat := truncBits s.cap s.port.value.toNat

/-- The operand `cvalue`: `RCAP` wires (30_encoding.md R66). -/
def State.cvalueOperand (s : State) : Nat := truncBits s.rcap s.port.cvalue.toNat

/-- Lane `k` of the operand `seq`: `CAPACITY` wires (30_encoding.md R66). The list names the lanes from 0 up; a lane it
does not reach is a lane the host drives with 0 (notes/assumptions/6.md). -/
def State.seqLane (s : State) (k : Nat) : Nat := truncBits s.cap (s.port.seq.getD k 0#64).toNat

/-- The operand `seq` of `SETB`: exactly `n` elements (30_encoding.md R64, R66). -/
def State.seqOperand (s : State) (n : Nat) : List Nat := (List.range n).map s.seqLane

/-- `indent` as a single-word operation uses it: normalised (30_encoding.md R65, 40_primitives.md R92). A chunked
operation uses the field as it stands (44_chunked.md R142). -/
def State.wordIndent (s : State) (indent : Nat) : Nat := normIndent s.cap indent

/-- The symbol of one bit (43_search_render.md R131). -/
def symbolOfBit (b : Bool) : Symbol := if b then .one else .zero

/-- `Str_C(b)`: `C` symbols, most significant bit first (43_search_render.md R131). -/
def render (C b : Nat) : List Symbol :=
  (List.range C).map fun p => symbolOfBit (b.testBit (C - 1 - p))

/-- `total_bit_count()` of an array of `n` chunks (44_chunked.md R150, 10_state.md R30). -/
def State.totalBits (s : State) (n : Nat) : Nat := n * s.cap

/-- `ChunkForBit(n, g)`, the index of the chunk that holds global bit `g` (44_chunked.md R140). -/
def chunkForBit (C n g : Nat) : Nat := n - 1 - g / C

end Sys2Proof.Machine
end

