-- ==== Sys2Proof/Machine/Flags.lean ====
section
/-! DEFINITION. The block has no flags (10_state.md R22): the one condition it reports is the status of a response.
Here are the status codes and, named, the conditions that give each status (60_exceptions.md R160 to R166). -/

namespace Sys2Proof.Machine

/-- The five statuses; no other code is ever produced (30_encoding.md R68, 93_implementation_defined.md U8). -/
inductive Status where
  | ok
  | rangeError
  | overflowError
  | badOperand
  | illegalOp
deriving DecidableEq, Repr

/-- The 3-bit code on the status lines (30_encoding.md R68). -/
def Status.code : Status → BitVec 3
  | .ok => 0
  | .rangeError => 1
  | .overflowError => 2
  | .badOperand => 3
  | .illegalOp => 4

/-- The status of an error kind (60_exceptions.md R160 to R163). -/
def ErrorKind.status : ErrorKind → Status
  | .rangeError => .rangeError
  | .overflowError => .overflowError
  | .badOperand => .badOperand
  | .illegalOp => .illegalOp

/-- The status of a response (30_encoding.md R67). -/
def Response.status : Response → Status
  | .ok _ => .ok
  | .error kind => kind.status

/-- The field `[i, i + w)` passes the top of the word (41_scalar.md R110, R111). -/
abbrev State.spanPastWord (s : State) (i w : Nat) : Prop := i + w > s.cap

/-- `n` fields of `w` bits from `i` pass the top of the word; the product does not wrap (42_bulk.md R120, 40_primitives.md R97). -/
abbrev State.seqPastWord (s : State) (i n w : Nat) : Prop := i + n * w > s.cap

/-- The value does not fit a field of `w` bits (41_scalar.md R111). -/
abbrev valueTooWide (v w : Nat) : Prop := bitSize v > w

/-- Some element does not fit, checked on the maximum of the whole sequence (42_bulk.md R121). -/
abbrev elementTooWide (vs : List Nat) (w : Nat) : Prop := vs ≠ [] ∧ bitSize (vs.foldl max 0) > w

/-- The array of a chunked command extends beyond the chunk memory (44_chunked.md R143). -/
abbrev State.arrayTooLong (s : State) (n : Nat) : Prop := n > s.params.nchunk

/-- The field `[g, g + w)` passes the top of the array of `n` chunks (44_chunked.md R145). -/
abbrev State.spanPastArray (s : State) (n g w : Nat) : Prop := g + w > s.totalBits n

/-- The field is wider than the destination of the chunked read (44_chunked.md R145). -/
abbrev State.widerThanDestination (s : State) (w : Nat) : Prop := w > s.rcap

end Sys2Proof.Machine
end

