-- ==== Sys2Proof/Machine/Ops.lean ====
section
/-! DEFINITION. The named operations over the chunk memory and the response port. Every meaning is built from these. -/

namespace Sys2Proof.Machine

/-- The word listed for chunk `j`, if one has been written since power-up. -/
def cellAt : List (Nat × Word) → Nat → Option Word
  | [], _ => none
  | (k, u) :: rest, j => if k = j then some u else cellAt rest j

/-- The cells with `v` at chunk `j`, indices kept strictly rising. -/
def setCell : List (Nat × Word) → Nat → Word → List (Nat × Word)
  | [], j, v => [(j, v)]
  | (k, u) :: rest, j, v =>
    if j < k then (j, v) :: (k, u) :: rest
    else if j = k then (j, v) :: rest
    else (k, u) :: setCell rest j v

/-- What chunk `j` of the memory holds: the word written last, or the free power-up value (10_state.md R31). -/
def Memory.at (m : Memory) (j : Nat) : Word := (cellAt m.cells j).getD (Config.powerUpWord m.seed j)

/-- The memory with `v` written at chunk `j`. -/
def Memory.put (m : Memory) (j : Nat) (v : Word) : Memory := { m with cells := setCell m.cells j v }

/-- `CH[j]`, the current content of chunk `j`: `CAPACITY` bits (00_scope.md R12). -/
def State.chunk (s : State) (j : Nat) : Nat := truncBits s.cap (s.ch.at j).toNat

/-- The state after the memory access `a` is noted at the port. -/
def State.note (s : State) (a : Access) : State := { s with accesses := s.accesses ++ [a] }

/-- The state with the `CAPACITY` low bits of `v` stored at chunk `j`; no access is noted. -/
def State.storeChunk (s : State) (j v : Nat) : State :=
  { s with ch := s.ch.put j (toWord (truncBits s.cap v)) }

/-- `MemRead(j, 1)`: the word and the state after the access, which changes nothing (00_scope.md R12, 20_memory.md R46). -/
def State.memRead (s : State) (j : Nat) : Nat × State := (s.chunk j, s.note (.read j))

/-- `MemWrite(j, 1, v)` (00_scope.md R12). -/
def State.memWrite (s : State) (j v : Nat) : State :=
  (s.storeChunk j v).note (.write j (toWord (truncBits s.cap v)))

/-- The state after the command in flight is answered with `r`. Nothing of the command is left behind
(10_state.md R25). -/
def State.answer (s : State) (r : Response) : State :=
  { s with port := Command.idle, responses := s.responses ++ [r] }

/-- `return (…)`: status `OK` with the payload (00_scope.md R12). -/
def State.ret (s : State) (p : Payload) : Host.Outcome State Fault Refusal := .next (s.answer (.ok p))

/-- TAKING AN EXCEPTION, the one shared operation: `raise <kind>` ends the operation with that status and no other
effect (00_scope.md R12, 60_exceptions.md R167). An error transfers control nowhere, saves nothing and changes no mode
(R171), so there is nothing to return from: the block accepts the next command as it is (R172). -/
def State.raise (s : State) (kind : ErrorKind) : Host.Outcome State Fault Refusal := .next (s.answer (.error kind))

/-- The state as a command begins: the command is in flight and it has made no access yet (10_state.md R25). -/
def State.accept (s : State) (c : Command) : State := { s with port := c, accesses := [] }

/-- The canonical form of a memory of the build `p`: indices strictly rising and inside the chunk memory, and every
word a `CAPACITY`-bit number (20_memory.md R40, 10_state.md R27). -/
def Memory.wf (p : Params) (m : Memory) : Bool :=
  decide ((m.cells.map Prod.fst).Pairwise (· < ·)) &&
    m.cells.all fun c => decide (c.1 < p.nchunk) && decide (c.2.toNat < 2 ^ p.capacity.bits)

end Sys2Proof.Machine
end

