-- ==== Sys2Proof/Machine/Bulk.lean ====
section
/-! DEFINITION. GETB and SETB, the packed operations (42_bulk.md R120, R121). -/

namespace Sys2Proof.Machine

/-- The loop of 42_bulk.md R120: field `k` at `i + k*w`, which is not normalised again. -/
def getFields (b i w n : Nat) : List Nat := (List.range n).map fun k => extractField b (i + k * w) w

/-- The loop of 42_bulk.md R121: `vs` inserted in increasing-index order, the first at `i`. -/
def putFields (C w : Nat) : (res i : Nat) → (vs : List Nat) → Nat
  | res, _, [] => res
  | res, i, v :: vs => putFields C w (insertField C res i w v) (i + w) vs

/-- `GETB` (42_bulk.md R120). -/
def execGetb (width n indent : Nat) (s : State) : Host.Outcome State Fault Refusal :=
  if width = 0 then s.raise .badOperand
  else if s.seqPastWord (s.wordIndent indent) n width then s.raise .overflowError
  else s.ret (.seqOut ((getFields s.bitsOperand (s.wordIndent indent) width n).map toWord))

/-- `SETB` (42_bulk.md R121). Every check precedes the first insertion. -/
def execSetb (width n indent : Nat) (s : State) : Host.Outcome State Fault Refusal :=
  if width = 0 then s.raise .badOperand
  else if s.seqPastWord (s.wordIndent indent) n width then s.raise .overflowError
  else if elementTooWide (s.seqOperand n) width then s.raise .overflowError
  else s.ret (.res (toWord (putFields s.cap width s.bitsOperand (s.wordIndent indent) (s.seqOperand n))))

end Sys2Proof.Machine
end

