-- ==== Sys2Proof/Machine/Chunked.lean ====
section
/-! DEFINITION. CLOC, CGET, CSET and CSTR (44_chunked.md R143 to R149). -/

namespace Sys2Proof.Machine

/-- `Vec(CH, n)`: chunks `0..n-1` as one number, `CH[0]` most significant (10_state.md R30). -/
def State.vec (s : State) (n : Nat) : Nat :=
  ((List.range n).map fun j => s.chunk j * 2 ^ ((n - 1 - j) * s.cap)).sum

/-- The loop of 44_chunked.md R145, `k` chunks being left below the last one read: while the field goes on, read the
next lower chunk and set it above the `got` bits there are. -/
def gather (R width : Nat) (s : State) (acc got : Nat) : (k : Nat) → Nat × State
  | 0 => (acc, s)
  | k + 1 =>
    if got < width then
      gather R width (s.memRead k).2 (truncBits R (acc ||| ((s.memRead k).1 <<< got))) (got + s.cap) k
    else (acc, s)

/-- The loop of 44_chunked.md R148, `k` chunks being left, the next to write at `k - 1`: one read-modify-write a chunk. -/
def scatter (s : State) (off rem v : Nat) : (k : Nat) → State
  | 0 => s
  | k + 1 =>
    if rem = 0 then s
    else
      let take := min (s.cap - off) rem
      scatter ((s.memRead k).2.memWrite k (insertField s.cap (s.memRead k).1 off take (v &&& lowMask take)))
        0 (rem - take) (v >>> take) k

/-- The loop of 44_chunked.md R149: `left` chunks rendered from chunk `j` up, in storage order. -/
def renderChunks (s : State) : (left j : Nat) → List Symbol × State
  | 0, _ => ([], s)
  | left + 1, j =>
    let rest := renderChunks (s.memRead j).2 left (j + 1)
    (render s.cap (s.memRead j).1 ++ rest.1, rest.2)

/-- `CLOC` (44_chunked.md R144). The chunk memory is not accessed. -/
def execCloc (n indent : Nat) (s : State) : Host.Outcome State Fault Refusal :=
  if s.arrayTooLong n then s.raise .badOperand
  else if s.spanPastArray n indent 1 then s.raise .overflowError
  else s.ret (.chunk (BitVec.ofNat 7 (chunkForBit s.cap n indent)))

/-- `CGET` (44_chunked.md R145). -/
def execCget (width n indent : Nat) (s : State) : Host.Outcome State Fault Refusal :=
  if width = 0 ∨ s.arrayTooLong n then s.raise .badOperand
  else if s.spanPastArray n indent width ∨ s.widerThanDestination width then s.raise .overflowError
  else
    let j := chunkForBit s.cap n indent
    let off := indent % s.cap
    let first := s.memRead j
    let r := gather s.rcap width first.2 (first.1 >>> off) (s.cap - off) j
    r.2.ret (.cres (toWord (r.1 &&& lowMask width)))

/-- `CSET` (44_chunked.md R148). Without `HAS_CSET` its code is reserved (30_encoding.md R72); `decode` refuses it there
already, and the meaning says the same. -/
def execCset (width n indent : Nat) (s : State) : Host.Outcome State Fault Refusal :=
  if s.params.hasCset = false then s.raise .illegalOp
  else if width = 0 ∨ s.arrayTooLong n then s.raise .badOperand
  else if valueTooWide s.cvalueOperand width ∨ s.spanPastArray n indent width ∨ s.widerThanDestination width then
    s.raise .overflowError
  else
    (scatter s (indent % s.cap) width s.cvalueOperand (chunkForBit s.cap n indent + 1)).ret .done

/-- `CSTR` (44_chunked.md R149). -/
def execCstr (n : Nat) (s : State) : Host.Outcome State Fault Refusal :=
  if s.arrayTooLong n then s.raise .badOperand
  else
    let r := renderChunks s n 0
    r.2.ret (.str r.1)

end Sys2Proof.Machine
end

