-- ==== Sys2Proof/Machine/Scalar.lean ====
section
/-! DEFINITION. BSIZE (40_primitives.md R98), GET and SET (41_scalar.md R110, R111). -/

namespace Sys2Proof.Machine

/-- `BSIZE` (40_primitives.md R98). -/
def execBsize (s : State) : Host.Outcome State Fault Refusal :=
  s.ret (.size (BitVec.ofNat 7 (bitSize s.valueOperand)))

/-- `GET` (41_scalar.md R110). -/
def execGet (width indent : Nat) (s : State) : Host.Outcome State Fault Refusal :=
  if width = 0 then s.raise .badOperand
  else if s.spanPastWord (s.wordIndent indent) width then s.raise .rangeError
  else s.ret (.res (toWord (extractField s.bitsOperand (s.wordIndent indent) width)))

/-- `SET` (41_scalar.md R111). The span error is `OverflowError` here (90_conflicts.md C2). -/
def execSet (width indent : Nat) (s : State) : Host.Outcome State Fault Refusal :=
  if width = 0 then s.raise .badOperand
  else if valueTooWide s.valueOperand width ∨ s.spanPastWord (s.wordIndent indent) width then s.raise .overflowError
  else s.ret (.res (toWord (insertField s.cap s.bitsOperand (s.wordIndent indent) width s.valueOperand)))

end Sys2Proof.Machine
end

