-- ==== Sys2Proof/Machine/Search.lean ====
section
/-! DEFINITION. IDX and STR (43_search_render.md R130, R131). -/

namespace Sys2Proof.Machine

/-- The scan of 43_search_render.md R130: the least `k < cnt` whose field is `v`. -/
def findField (b w v cnt : Nat) : Option Nat := (List.range cnt).find? fun k => extractField b (k * w) w == v

/-- The payload of `IDX`; not found is `found = 0`, `index = 0x7F` (43_search_render.md R130). -/
def searchPayload : Option Nat → Payload
  | some k => .search true (BitVec.ofNat 7 k)
  | none => .search false 0x7F#7

/-- `IDX` (43_search_render.md R130). The `C mod width` bits on top are not a field. -/
def execIdx (width : Nat) (s : State) : Host.Outcome State Fault Refusal :=
  if width = 0 then s.raise .badOperand
  else if valueTooWide s.valueOperand width then s.raise .overflowError
  else s.ret (searchPayload (findField s.bitsOperand width s.valueOperand (s.cap / width)))

/-- `STR` (43_search_render.md R131). -/
def execStr (s : State) : Host.Outcome State Fault Refusal := s.ret (.str (render s.cap s.bitsOperand))

end Sys2Proof.Machine
end

