-- ==== Sys2Proof/Machine/Dispatch.lean ====
section
/-! DEFINITION. The meaning of each instruction, one arm per constructor (30_encoding.md R70). -/

namespace Sys2Proof.Machine

/-- The effect of the decoded instruction `i`, its data operands on the port of `s`. -/
def exec (i : Instr) (s : State) : Host.Outcome State Fault Refusal :=
  match i with
  | .bsize => Sys2Proof.Machine.execBsize s
  | .get width indent => Sys2Proof.Machine.execGet width indent s
  | .set width indent => Sys2Proof.Machine.execSet width indent s
  | .getb width n indent => Sys2Proof.Machine.execGetb width n indent s
  | .setb width n indent => Sys2Proof.Machine.execSetb width n indent s
  | .idx width => Sys2Proof.Machine.execIdx width s
  | .str => Sys2Proof.Machine.execStr s
  | .cloc n indent => Sys2Proof.Machine.execCloc n indent s
  | .cget width n indent => Sys2Proof.Machine.execCget width n indent s
  | .cset width n indent => Sys2Proof.Machine.execCset width n indent s
  | .cstr n => Sys2Proof.Machine.execCstr n s

end Sys2Proof.Machine
end

