-- ==== Sys2Proof/Machine/Moves.lean ====
section
/-! DEFINITION. What each move of the host does to the machine (10_state.md R26). -/

namespace Sys2Proof.Machine

/-- The block executes the command it is handed, from issue to response, as one atomic step (20_memory.md R48):
decode, then the operation; a word that decodes to nothing is answered `ILLEGAL_OP` (30_encoding.md R72, R73). -/
def runCommand (c : Command) (s : State) : Host.Outcome State Fault Refusal :=
  match decode s.params.hasCset c.ctl with
  | .ok i => exec i (s.accept c)
  | .error _ => (s.accept c).raise .illegalOp

/-- The host writes chunk `j` between commands (10_state.md R24). There is no chunk outside `0..NCHUNK-1`
(20_memory.md R40; notes/assumptions/10.md). The access is not the block's, so it is not noted. -/
def hostWrite (j : Nat) (v : Word) (s : State) : Host.Outcome State Fault Refusal :=
  if j < s.params.nchunk then .next (s.storeChunk j v.toNat) else .fault (.noSuchChunk j)

/-- Reset between commands: nothing to initialise, and the chunk memory is not written
(70_reset_and_hazards.md R190, R192). -/
def hostReset (s : State) : Host.Outcome State Fault Refusal := .next s

/-- The writes among `as` that were made before reset stopped the command, stored in `s` (R191). -/
def landWrites (s : State) : List Access → State
  | [] => s
  | .read _ :: as => landWrites s as
  | .write j v :: as =>
    landWrites (if Config.abandonedWriteLands s.draws j then s.storeChunk j v.toNat else s) as

/-- Reset stops the command `c` before its response (70_reset_and_hazards.md R191): no response, and each chunk `c`
would have written holds its old or its new content, a free choice per chunk. -/
def abandonCommand (c : Command) (s : State) : Host.Outcome State Fault Refusal :=
  match runCommand c s with
  | .next t =>
    let u := landWrites s t.accesses
    .next { u with port := Command.idle, accesses := [], draws := u.draws + 1 }
  | .fault r => .fault r
  | .refused r => .refused r

/-- One move of the host and the block's answer to it. -/
def applyMove (m : HostMove) (s : State) : Host.Outcome State Fault Refusal :=
  match m with
  | .command c => runCommand c s
  | .write j v => hostWrite j v s
  | .reset => hostReset s
  | .commandThenReset c => abandonCommand c s

/-- The command the host presents when it issues the control word `w` with every data operand zero. -/
def commandOfWord (nbits w : Nat) : Command :=
  { Command.idle with ctl := BitVec.ofNat 32 (w % 2 ^ nbits) }

end Sys2Proof.Machine
end

