-- ==== Sys2Proof/Machine/Step.lean ====
section
/-! DEFINITION. One step: the next move of the host and the block's whole answer to it. -/

namespace Sys2Proof.Machine

/-- The block executes one command at a time, in issue order (20_memory.md R48, 70_reset_and_hazards.md R194), and
fetches nothing itself (10_state.md R21). With no move to come it is idle and stays so (70_reset_and_hazards.md R190;
notes/assumptions/7.md). -/
def step (s : State) : Host.Outcome State Fault Refusal :=
  match s.inbox with
  | [] => .next s
  | m :: rest => applyMove m { s with inbox := rest }

/-- `s` with the command of control word `w` (data operands zero) as the host's next move, so that the next step
executes it: the block does not fetch, a command is handed to it (10_state.md R21; notes/assumptions/7.md). -/
def State.withFetchWord (s : State) (nbits w : Nat) : State :=
  { s with inbox := .command (commandOfWord nbits w) :: s.inbox }

end Sys2Proof.Machine
end

