-- ==== Sys2Proof/Machine/Assembler.lean ====
section
/-! DEFINITION. How a host writes a command down (30_encoding.md R75 to R77): the assembler syntax, its aliases, and how
an integer of any size or sign becomes the field `indent`. No machine step uses this file. -/

namespace Sys2Proof.Machine

/-- `indent` from a host's integer `k`: `k mod 2^14`, non-negative (30_encoding.md R77). -/
def hostIndent (k : Int) : Nat := (k % 2 ^ 14).toNat

/-- The names a number is given to in a written command (30_encoding.md R75). -/
inductive NumberName where
  | indent
  | width
  | n
  | bits
  | value
  | cvalue
deriving DecidableEq, Repr

/-- One `name=value` of a written command. -/
inductive Setting where
  | number (name : NumberName) (v : Nat)
  | seq (vs : List Nat)
deriving DecidableEq, Repr

/-- A written command: the operation code its mnemonic names, and its settings in the order written. -/
structure Written where
  op : Nat
  settings : List Setting
deriving DecidableEq, Repr

/-- The mnemonics and, as aliases, the source's function names (30_encoding.md R70, R76). -/
def opNames : List (String × Nat) :=
  [("BSIZE", 1), ("GET", 2), ("SET", 3), ("GETB", 4), ("SETB", 5), ("IDX", 6), ("STR", 7), ("CLOC", 8), ("CGET", 9),
    ("CSET", 10), ("CSTR", 11)] ++
  [("bit_size", 1), ("get_scalar", 2), ("set_scalar", 3), ("get_bulk", 4), ("set_bulk", 5), ("index_of", 6),
    ("to_string", 7), ("chunk_for_bit", 8), ("chunked::get_scalar", 9), ("chunked::to_str", 11)]

/-- The argument names; `index` is an alias of `indent`, `offset` of `width` (30_encoding.md R75, R76). -/
def numberNames : List (String × NumberName) :=
  [("indent", .indent), ("index", .indent), ("width", .width), ("offset", .width), ("n", .n), ("bits", .bits),
    ("value", .value), ("cvalue", .cvalue)]

/-- What a name stands for in a table of names. -/
def lookupName {α : Type} (table : List (String × α)) (name : List Char) : Option α :=
  (table.find? fun e => e.1.toList == name).map Prod.snd

/-- The value of a digit in a base up to 16. -/
def digitValue (base : Nat) (c : Char) : Option Nat :=
  let d :=
    if '0' ≤ c ∧ c ≤ '9' then c.toNat - '0'.toNat
    else if 'a' ≤ c ∧ c ≤ 'f' then c.toNat - 'a'.toNat + 10
    else if 'A' ≤ c ∧ c ≤ 'F' then c.toNat - 'A'.toNat + 10
    else 16
  if d < base then some d else none

/-- Digits read in a base, after the digits that gave `acc`. -/
def parseDigits (base : Nat) : (acc : Nat) → List Char → Option Nat
  | acc, [] => some acc
  | acc, c :: cs => (digitValue base c).bind fun d => parseDigits base (acc * base + d) cs

/-- A number: decimal, `0x…` or `0b…` (30_encoding.md R75). -/
def parseNumber : List Char → Option Nat
  | [] => none
  | '0' :: 'x' :: c :: cs => parseDigits 16 0 (c :: cs)
  | '0' :: 'b' :: c :: cs => parseDigits 2 0 (c :: cs)
  | c :: cs => parseDigits 10 0 (c :: cs)

/-- The pieces of a text between the commas outside brackets; `cur` is the piece being read. -/
def splitCommas : (inside : Bool) → (cur : List Char) → List Char → List (List Char)
  | _, cur, [] => [cur]
  | inside, cur, c :: cs =>
    if c = ',' ∧ inside = false then cur :: splitCommas false [] cs
    else if c = '[' then splitCommas true (cur ++ [c]) cs
    else if c = ']' then splitCommas false (cur ++ [c]) cs
    else splitCommas inside (cur ++ [c]) cs

/-- A sequence `[v0, v1, …]`, element 0 first (30_encoding.md R75), its opening bracket taken off. -/
def parseSequence (cs : List Char) : Option (List Nat) :=
  if cs.getLast? = some ']' then
    if cs.dropLast = [] then some [] else (splitCommas false [] cs.dropLast).mapM parseNumber
  else none

/-- One `name=value`. -/
def parseSetting (cs : List Char) : Option Setting :=
  let name := cs.takeWhile (· ≠ '=')
  match cs.drop (name.length + 1) with
  | '[' :: rest => if name = "seq".toList then (parseSequence rest).map .seq else none
  | v => (lookupName numberNames name).bind fun nm => (parseNumber v).map (.number nm)

/-- `MNEMONIC name=value, name=value, …` (30_encoding.md R75). -/
def parseWritten (text : List Char) : Option Written :=
  let name := text.takeWhile (· ≠ ' ')
  let args := (text.drop name.length).filter (· ≠ ' ')
  (lookupName opNames name).bind fun op =>
    if args = [] then some ⟨op, []⟩
    else ((splitCommas false [] args).mapM parseSetting).map (Written.mk op)

/-- What the settings give a name: nothing written is 0 (30_encoding.md R75). -/
def Written.number (a : Written) (name : NumberName) : Nat :=
  (a.settings.findSome? fun | .number nm v => if nm = name then some v else none | .seq _ => none).getD 0

/-- Whether a name is written. -/
def Written.names (a : Written) (name : NumberName) : Bool :=
  a.settings.any fun | .number nm _ => nm == name | .seq _ => false

/-- The sequence written; none written is the empty one. -/
def Written.sequence (a : Written) : List Nat :=
  (a.settings.findSome? fun | .seq vs => some vs | .number _ _ => none).getD []

/-- The name a setting sets; the sequence has a name of its own. -/
def Setting.name : Setting → Option NumberName
  | .number nm _ => some nm
  | .seq _ => none

/-- The command a written command stands for in the build `p`, if there is one: no name twice, `n` not written for
`SETB` (it is the length of `seq`), every operand inside its width (30_encoding.md R66, R75), and an `indent` of any
size for a single-word operation but one below `2^14` for a chunked one (R77). -/
def assemble (p : Params) (a : Written) : Option Command :=
  let C := p.capacity.bits
  let n := if a.op = 5 then a.sequence.length else a.number .n
  if (a.settings.map Setting.name).Nodup ∧ (a.op = 5 → a.names .n = false)
      ∧ a.number .width < 2 ^ 7 ∧ n < 2 ^ 7 ∧ (8 ≤ a.op → a.number .indent < 2 ^ 14)
      ∧ a.number .bits < 2 ^ C ∧ a.number .value < 2 ^ C ∧ a.number .cvalue < 2 ^ p.rcap.bits
      ∧ (∀ v ∈ a.sequence, v < 2 ^ C) then
    some
      { ctl := packCtl ⟨a.op, a.number .width, n, hostIndent (a.number .indent)⟩
        bits := toWord (a.number .bits)
        value := toWord (a.number .value)
        seq := a.sequence.map toWord
        cvalue := toWord (a.number .cvalue) }
  else none

end Sys2Proof.Machine
end

