-- ==== Sys2Proof/Safety.lean ====
section
/-! DEFINITION. What is said of runs: the invariant of the machine between commands, what a host that keeps the rules
does, and which part of the chunk memory an instruction may touch. -/

namespace Sys2Proof

/-- Every operand fits its lane, and `SETB` has exactly `n` elements (30_encoding.md R66). -/
def Command.presentable (p : Params) (c : Command) : Bool :=
  decide (c.bits.toNat < 2 ^ p.capacity.bits) && decide (c.value.toNat < 2 ^ p.capacity.bits) &&
    decide (c.cvalue.toNat < 2 ^ p.rcap.bits) && (c.seq.all fun v => decide (v.toNat < 2 ^ p.capacity.bits)) &&
    (decide ((ctlFields c.ctl).op ≠ 5) || decide (c.seq.length = (ctlFields c.ctl).n))

/-- The length of the array of chunks the instruction may access: `CH[0..n-1]` for `CGET`, `CSET` and `CSTR`, and none
for the others (20_memory.md R40, R41). -/
def Instr.arrayLength : Instr → Nat
  | .bsize => 0
  | .get _ _ => 0
  | .set _ _ => 0
  | .getb _ _ _ => 0
  | .setb _ _ _ => 0
  | .idx _ => 0
  | .str => 0
  | .cloc _ _ => 0
  | .cget _ n _ => n
  | .cset _ n _ => n
  | .cstr n => n

end Sys2Proof

namespace Sys2Proof.Machine

/-- A response is one the block can produce: every payload inside the width and the values 30_encoding.md R69 gives it. -/
def Response.wf (p : Params) : Response → Bool
  | .error _ => true
  | .ok (.size v) => decide (1 ≤ v.toNat) && decide (v.toNat ≤ p.capacity.bits)
  | .ok (.res v) => decide (v.toNat < 2 ^ p.capacity.bits)
  | .ok (.seqOut vs) =>
    decide (vs.length ≤ p.capacity.bits) && vs.all fun v => decide (v.toNat < 2 ^ p.capacity.bits)
  | .ok (.search true index) => decide (index.toNat < p.capacity.bits)
  | .ok (.search false index) => decide (index = 0x7F#7)
  | .ok (.str cs) =>
    decide (cs.length % p.capacity.bits = 0) && decide (cs.length ≤ p.nchunk * p.capacity.bits)
  | .ok (.chunk v) => decide (v.toNat < p.nchunk)
  | .ok (.cres v) => decide (v.toNat < 2 ^ p.rcap.bits)
  | .ok .done => true

/-- The invariant between commands: a legal build (00_scope.md R7), the chunk memory in its canonical form, nothing of
a command left behind (10_state.md R25), and only responses the block can produce (30_encoding.md R69). -/
abbrev State.Inv (s : State) : Prop :=
  s.params.WellFormed ∧ s.ch.wf s.params = true ∧ s.port = Command.idle ∧
    s.responses.all (Response.wf s.params) = true

/-- A move that exists on the machine of build `p`: its operands fit, and the chunk it writes is there
(30_encoding.md R66, 20_memory.md R40). -/
def HostMove.possible (p : Params) : HostMove → Bool
  | .command c => c.presentable p
  | .write j v => decide (j < p.nchunk) && decide (v.toNat < 2 ^ p.capacity.bits)
  | .reset => true
  | .commandThenReset c => c.presentable p

/-- The environment makes only moves that exist. -/
abbrev State.HostPossible (s : State) : Prop := s.inbox.all (HostMove.possible s.params) = true

/-- Whether a move ends in a response (30_encoding.md R60; 70_reset_and_hazards.md R191 for the last). -/
def HostMove.answered : HostMove → Bool
  | .command _ => true
  | .write _ _ => false
  | .reset => false
  | .commandThenReset _ => false

/-- The chunk an access is made to. -/
def Access.chunkIndex : Access → Nat
  | .read j => j
  | .write j _ => j

/-- A string of symbols read as a binary numeral, the leftmost most significant (43_search_render.md R131). -/
def numeral (cs : List Symbol) : Nat := cs.foldl (fun a c => 2 * a + (if c = .one then 1 else 0)) 0

end Sys2Proof.Machine
end

