-- ==== Sys2Proof/Certificates/Slice0/Obligations.lean ====
section
/-! DEFINITION. The statements for the provers. Each says which rule of the spec it formalises. A next state is written
out as a record over the old one, so what it does not name is unchanged. -/

open Sys2Proof Sys2Proof.Machine

/-! ### Encoding -/

/-- 30_encoding.md R61 and R71, read back: every well-formed instruction the build has, with every operand at every
value its field admits, decodes from its own control word. -/
def Obligations.DecodeOfEncode : Prop :=
  ∀ (hasCset : Bool) (i : Instr), i.WellFormed → i.present hasCset = true → decode hasCset (encode i) = .ok i

/-- Each control word has at most one meaning, and that meaning has no other control word. -/
def Obligations.EncodeOfDecode : Prop :=
  ∀ (hasCset : Bool) (w : BitVec 32) (i : Instr), decode hasCset w = .ok i →
    i.WellFormed ∧ i.present hasCset = true ∧ encode i = w

/-- 30_encoding.md R61: the places and widths of the four fields, the formula of the control word, and that there are
no other fields and no spare bits. -/
def Obligations.ControlWordIsItsFourFields : Prop :=
  (∀ w : BitVec 32, packCtl (ctlFields w) = w ∧
    (ctlFields w).op < 2 ^ 4 ∧ (ctlFields w).width < 2 ^ 7 ∧ (ctlFields w).n < 2 ^ 7 ∧ (ctlFields w).indent < 2 ^ 14 ∧
    w.toNat = (ctlFields w).op <<< 28 ||| (ctlFields w).width <<< 21 ||| (ctlFields w).n <<< 14 ||| (ctlFields w).indent) ∧
  ∀ op width n indent : Nat, op < 2 ^ 4 → width < 2 ^ 7 → n < 2 ^ 7 → indent < 2 ^ 14 →
    ctlFields (packCtl ⟨op, width, n, indent⟩) = ⟨op, width, n, indent⟩

/-- 30_encoding.md R71: the match and mask of every row select exactly the words that decode to that row. -/
def Obligations.RowsSelectedByMatchAndMask : Prop :=
  ∀ (hasCset : Bool) (w : BitVec 32),
    (decode hasCset w = .ok .bsize ↔ w &&& 0xFFFFFFFF#32 = 0x10000000#32) ∧
    ((∃ width indent, decode hasCset w = .ok (.get width indent)) ↔ w &&& 0xF01FC000#32 = 0x20000000#32) ∧
    ((∃ width indent, decode hasCset w = .ok (.set width indent)) ↔ w &&& 0xF01FC000#32 = 0x30000000#32) ∧
    ((∃ width n indent, decode hasCset w = .ok (.getb width n indent)) ↔ w &&& 0xF0000000#32 = 0x40000000#32) ∧
    ((∃ width n indent, decode hasCset w = .ok (.setb width n indent)) ↔ w &&& 0xF0000000#32 = 0x50000000#32) ∧
    ((∃ width, decode hasCset w = .ok (.idx width)) ↔ w &&& 0xF01FFFFF#32 = 0x60000000#32) ∧
    (decode hasCset w = .ok .str ↔ w &&& 0xFFFFFFFF#32 = 0x70000000#32) ∧
    ((∃ n indent, decode hasCset w = .ok (.cloc n indent)) ↔ w &&& 0xFFE00000#32 = 0x80000000#32) ∧
    ((∃ width n indent, decode hasCset w = .ok (.cget width n indent)) ↔ w &&& 0xF0000000#32 = 0x90000000#32) ∧
    ((∃ width n indent, decode hasCset w = .ok (.cset width n indent)) ↔
      hasCset = true ∧ w &&& 0xF0000000#32 = 0xA0000000#32) ∧
    ((∃ n, decode hasCset w = .ok (.cstr n)) ↔ w &&& 0xFFE03FFF#32 = 0xB0000000#32)

/-- 30_encoding.md R72: exactly these control words are illegal, and a step on one answers `ILLEGAL_OP`, with no
payload, no memory access and no other effect. -/
def Obligations.IllegalWordsAnsweredIllegalOp : Prop :=
  (∀ (hasCset : Bool) (w : BitVec 32), (∃ e, decode hasCset w = .error e) ↔
    (ctlFields w).op = 0 ∨ 12 ≤ (ctlFields w).op ∨ ((ctlFields w).op = 10 ∧ hasCset = false) ∨
    ((ctlFields w).op ∈ [1, 7] ∧ ((ctlFields w).width ≠ 0 ∨ (ctlFields w).n ≠ 0 ∨ (ctlFields w).indent ≠ 0)) ∨
    ((ctlFields w).op ∈ [2, 3] ∧ (ctlFields w).n ≠ 0) ∨
    ((ctlFields w).op = 6 ∧ ((ctlFields w).n ≠ 0 ∨ (ctlFields w).indent ≠ 0)) ∨
    ((ctlFields w).op = 8 ∧ (ctlFields w).width ≠ 0) ∨
    ((ctlFields w).op = 11 ∧ ((ctlFields w).width ≠ 0 ∨ (ctlFields w).indent ≠ 0))) ∧
  ∀ (s : State) (c : Command) (rest : List HostMove) (e : DecodeError),
    s.inbox = .command c :: rest → decode s.params.hasCset c.ctl = .error e →
      step s = .next { s with inbox := rest, port := Command.idle, accesses := [], responses := s.responses ++ [.error .illegalOp] }

/-- Sanity: control words written out from 30_encoding.md R61 and the vectors of 95_test_vectors.md. -/
def Obligations.WrittenOutWordsDecode : Prop :=
  decode true 0b0001_0000000_0000000_00000000000000#32 = .ok .bsize ∧
  decode true 0b0010_0000011_0000000_00000000000101#32 = .ok (.get 3 5) ∧
  decode true 0b0101_0000001_0001000_00000000000000#32 = .ok (.setb 1 8 0) ∧
  decode true 0b0110_0000010_0000000_00000000000000#32 = .ok (.idx 2) ∧
  decode true 0b1001_0001100_0000011_00000000000110#32 = .ok (.cget 12 3 6) ∧
  decode true 0b1011_0000000_0000011_00000000000000#32 = .ok (.cstr 3)

/-- 30_encoding.md R77 (that nothing is lost is marked as derived): a host's integer passed as its low 14 bits loses nothing for a single-word operation, and one
that is already `0 ≤ k < 2^14` is passed as it is. -/
def Obligations.HostIntegerIndentLosesNothing : Prop :=
  ∀ (k : Int) (p : Params),
    hostIndent k < 2 ^ 14 ∧ normIndent p.capacity.bits (hostIndent k) = (k % (p.capacity.bits : Int)).toNat ∧
    (0 ≤ k → k < 2 ^ 14 → (hostIndent k : Int) = k)

/-- 30_encoding.md R66 and R75: a written command assembles only to a command whose operands fit their lanes and whose
`seq` has exactly `n` elements. -/
def Obligations.AssembledCommandsArePresentable : Prop :=
  ∀ (p : Params) (a : Written) (c : Command), a.op < 2 ^ 4 → assemble p a = some c → Command.presentable p c = true

/-! ### The step and the host -/

/-- 30_encoding.md R60 and R73, 20_memory.md R48: when the host's next move is a command whose control word decodes to
`i`, one step is `exec i` at the state with the command taken from the host, on the port, and no access made yet. -/
def Obligations.StepRunsTheDecodedInstruction : Prop :=
  ∀ (s : State) (c : Command) (rest : List HostMove) (i : Instr),
    s.inbox = .command c :: rest → decode s.params.hasCset c.ctl = .ok i →
      step s = exec i { s with inbox := rest, port := c, accesses := [] }

/-- The command `withFetchWord` places is the one the next step runs, and what was to come stays to come. MODEL'S
CHOICE: notes/assumptions/7.md. -/
def Obligations.PlacedWordIsRunNext : Prop :=
  ∀ (s : State) (i : Instr), i.WellFormed → i.present s.params.hasCset = true →
    step (s.withFetchWord 32 (encode i).toNat) =
      exec i { s with port := { Command.idle with ctl := encode i }, accesses := [] }

/-- An idle block stays as it is. MODEL'S CHOICE: notes/assumptions/7.md. -/
def Obligations.IdleStepChangesNothing : Prop := ∀ s : State, s.inbox = [] → step s = .next s

/-- 10_state.md R24: the host may write any word between commands; a command other than `CSET` writes none, and one
other than `CGET`, `CSET`, `CSTR` makes no access at all. -/
def Obligations.ChunkMemoryWrittenByHostAndCsetOnly : Prop :=
  (∀ (s : State) (j : Nat) (v : Word) (rest : List HostMove), s.inbox = .write j v :: rest → j < s.params.nchunk →
    ∃ t, step s = .next t ∧ t = { s with inbox := rest, ch := t.ch } ∧ t.chunk j = v.toNat % 2 ^ s.cap ∧
      ∀ j', j' ≠ j → t.ch.at j' = s.ch.at j') ∧
  ∀ (c : Command) (s t : State), runCommand c s = .next t →
    ((∀ width n indent, decode s.params.hasCset c.ctl ≠ .ok (.cset width n indent)) → t.ch = s.ch) ∧
    ((∀ width n indent, decode s.params.hasCset c.ctl ≠ .ok (.cset width n indent)) →
      (∀ width n indent, decode s.params.hasCset c.ctl ≠ .ok (.cget width n indent)) →
      (∀ n, decode s.params.hasCset c.ctl ≠ .ok (.cstr n)) → t.accesses = [])

/-- 20_memory.md R40: there is no chunk outside `0..NCHUNK-1`; a host write to one is the model's one fault. -/
def Obligations.HostWriteOutsideTheMemoryFaults : Prop :=
  ∀ (s : State) (j : Nat) (v : Word) (rest : List HostMove), s.inbox = .write j v :: rest → s.params.nchunk ≤ j →
    step s = .fault (.noSuchChunk j)

/-- 70_reset_and_hazards.md R190 and R192: reset between commands initialises nothing and does not write `CH`. -/
def Obligations.ResetBetweenCommandsChangesNothing : Prop :=
  ∀ (s : State) (rest : List HostMove), s.inbox = .reset :: rest → step s = .next { s with inbox := rest }

/-- 70_reset_and_hazards.md R191: a command that reset abandons is not answered; each chunk holds its old content or
the content the command would have left; a command other than `CSET` leaves the chunk memory as it was, and a `CSET`
leaves every chunk outside its span as it was. Which chunks are old and which new is a free value (notes/assumptions/4.md):
the statement holds for every choice of it. MODEL'S CHOICE, not the rule's (notes/assumptions/4.md): the two clauses that
the note of accesses is empty afterwards, even when writes landed, and that the count of abandoned commands goes up by one. -/
def Obligations.AbandonedCommandLeavesEachChunkOldOrNew : Prop :=
  ∀ (s : State) (c : Command) (rest : List HostMove), s.inbox = .commandThenReset c :: rest →
    ∃ t u, step s = .next t ∧ runCommand c { s with inbox := rest } = .next u ∧
      t = { s with inbox := rest, port := Command.idle, accesses := [], draws := s.draws + 1, ch := t.ch } ∧
      (∀ j, t.chunk j = s.chunk j ∨ t.chunk j = u.chunk j) ∧
      ((∀ width n indent, decode s.params.hasCset c.ctl ≠ .ok (.cset width n indent)) → t.ch = s.ch) ∧
      (∀ width n indent, decode s.params.hasCset c.ctl = .ok (.cset width n indent) →
        ∀ j, n - 1 - indent / s.cap < j ∨ j < n - 1 - (indent + width - 1) / s.cap → t.ch.at j = s.ch.at j)

/-! ### The whole machine -/

/-- 30_encoding.md R60, 10_state.md R20 to R25: whatever the instruction, the operands and the state, `exec` goes on,
with exactly one response more, nothing of the command left on the port, and everything outside the chunk memory and
the note of its accesses unchanged. -/
def Obligations.EveryInstructionIsAnsweredOnce : Prop :=
  ∀ (i : Instr) (s : State), ∃ t r, exec i s = .next t ∧
    t = { s with ch := t.ch, accesses := t.accesses, port := Command.idle, responses := s.responses ++ [r] } ∧
    t.ch.seed = s.ch.seed

/-- 60_exceptions.md R167: a command that ends with a status other than `OK` makes no access, and the state after it is
the state before it but for the response itself. -/
def Obligations.ErrorHasNoEffect : Prop :=
  ∀ (c : Command) (s t : State) (r : Response), runCommand c s = .next t → t.responses = s.responses ++ [r] →
    r.status ≠ .ok →
      t = { s with port := Command.idle, accesses := [], responses := s.responses ++ [r] } ∧ ∀ p, r ≠ .ok p

/-- 60_exceptions.md R168 (the sentence is marked as derived): the status is a function of the control word, the data operands and the build parameters:
not of the chunk memory, of earlier commands or of time. -/
def Obligations.StatusIsAFunctionOfCommandAndBuild : Prop :=
  ∀ (c : Command) (s₁ s₂ : State), s₁.params = s₂.params →
    ∃ t₁ t₂ r₁ r₂, runCommand c s₁ = .next t₁ ∧ runCommand c s₂ = .next t₂ ∧
      t₁.responses = s₁.responses ++ [r₁] ∧ t₂.responses = s₂.responses ++ [r₂] ∧ r₁.status = r₂.status

/-- 70_reset_and_hazards.md R195 (marked as derived): the result of a command depends only on its operands and, for a chunked one, on
`CH[0..n-1]` as it executes: two machines that agree on those give the same response and leave the same `CH[0..n-1]`. -/
def Obligations.CommandsDoNotInterfere : Prop :=
  ∀ (c : Command) (s₁ s₂ : State), s₁.params = s₂.params →
    (∀ i, decode s₁.params.hasCset c.ctl = .ok i → ∀ j, j < i.arrayLength → s₁.chunk j = s₂.chunk j) →
    ∃ t₁ t₂ r, runCommand c s₁ = .next t₁ ∧ runCommand c s₂ = .next t₂ ∧
      t₁.responses = s₁.responses ++ [r] ∧ t₂.responses = s₂.responses ++ [r] ∧ t₁.accesses = t₂.accesses ∧
      ∀ i, decode s₁.params.hasCset c.ctl = .ok i → ∀ j, j < i.arrayLength → t₁.chunk j = t₂.chunk j

/-- 20_memory.md R41: words outside `CH[0..n-1]` are neither read nor written, and with `n > NCHUNK` no word is. -/
def Obligations.ChunksOutsideTheArrayNeitherReadNorWritten : Prop :=
  ∀ (c : Command) (s t : State) (i : Instr), decode s.params.hasCset c.ctl = .ok i → runCommand c s = .next t →
    (∀ a ∈ t.accesses, a.chunkIndex < i.arrayLength ∧ a.chunkIndex < s.params.nchunk) ∧
    (∀ j, i.arrayLength ≤ j → t.ch.at j = s.ch.at j) ∧
    (s.params.nchunk < i.arrayLength → t.accesses = [] ∧ t.ch = s.ch)

/-- The invariant of the machine between commands is kept by every step from every state that has it. -/
def Obligations.StepKeepsTheInvariant : Prop := ∀ s t : State, s.Inv → step s = .next t → t.Inv

/-- The invariant holds right after reset, in every legal build. -/
def Obligations.ResetMeetsTheInvariant : Prop :=
  (∀ p : Params, p.WellFormed → (State.resetWith p).Inv) ∧ State.reset.Inv

/-- 20_memory.md R40, 70_reset_and_hazards.md R201: while the environment makes only moves that exist, no step faults or
refuses, and what is still to come stays possible. -/
def Obligations.PossibleMovesNeverStop : Prop :=
  ∀ s : State, s.HostPossible → ∃ t, step s = .next t ∧ t.HostPossible

/-- 70_reset_and_hazards.md R201 and R203: a program, whatever the host does between its commands, is over after as many
steps as there are moves; the responses it had are kept, and there is one more for each command that was not abandoned. That a program takes as many steps as it has moves rests on
one step being one move of the host, which is the MODEL'S CHOICE (notes/assumptions/7.md). -/
def Obligations.WholeProgramIsAnswered : Prop :=
  ∀ s : State, s.HostPossible →
    ∃ t rs, core.run s.inbox.length s = .next t ∧ t.inbox = [] ∧ t.params = s.params ∧
      t.responses = s.responses ++ rs ∧ rs.length = s.inbox.countP HostMove.answered

/-- 70_reset_and_hazards.md R201: the bounds of the chunked loops: `CGET` reads at most `ceil((C-1+RCAP)/C)` chunks,
`CSET` reads and writes at most as many, and `CSTR` reads exactly `n ≤ NCHUNK`. -/
def Obligations.ChunkLoopsAreBounded : Prop :=
  ∀ (width n indent : Nat) (s t : State),
    (exec (.cget width n indent) s = .next t →
      t.accesses.length ≤ s.accesses.length + (s.cap - 1 + s.rcap + s.cap - 1) / s.cap) ∧
    (exec (.cset width n indent) s = .next t →
      t.accesses.length ≤ s.accesses.length + 2 * ((s.cap - 1 + s.rcap + s.cap - 1) / s.cap)) ∧
    (exec (.cstr n) s = .next t → n ≤ s.params.nchunk → t.accesses.length = s.accesses.length + n)

/-- 30_encoding.md R68: the status codes; 5 to 7 are never produced. -/
def Obligations.StatusCodesOfTheTable : Prop :=
  Status.ok.code = 0 ∧ Status.rangeError.code = 1 ∧ Status.overflowError.code = 2 ∧ Status.badOperand.code = 3 ∧
    Status.illegalOp.code = 4 ∧ (∀ st : Status, st.code.toNat ≤ 4) ∧
    (∀ st st' : Status, st.code = st'.code → st = st') ∧ (∀ p, (Response.ok p).status = .ok) ∧
    ∀ k, (Response.error k).status ≠ .ok

/-- 60_exceptions.md R165, the first two ranks: a word that does not decode is `ILLEGAL_OP` whatever else is wrong with
it, and `width = 0` or `n > NCHUNK` is `BAD_OPERAND` whatever the source's own conditions say. -/
def Obligations.BadOperandComesBeforeTheSourcesErrors : Prop :=
  (∀ (c : Command) (s : State) (e : DecodeError), decode s.params.hasCset c.ctl = .error e →
    runCommand c s = .next { s with port := Command.idle, accesses := [], responses := s.responses ++ [.error .illegalOp] }) ∧
  ∀ (i : Instr) (s : State), i.present s.params.hasCset = true →
    ((∃ indent, i = .get 0 indent) ∨ (∃ indent, i = .set 0 indent) ∨ (∃ n indent, i = .getb 0 n indent) ∨
      (∃ n indent, i = .setb 0 n indent) ∨ i = .idx 0 ∨ (∃ n indent, i = .cget 0 n indent) ∨
      (∃ n indent, i = .cset 0 n indent) ∨
      ∃ width n indent, s.params.nchunk < n ∧
        (i = .cloc n indent ∨ i = .cget width n indent ∨ i = .cset width n indent ∨ i = .cstr n)) →
    exec i s = .next { s with port := Command.idle, responses := s.responses ++ [.error .badOperand] }

/-! ### Primitives -/

/-- 40_primitives.md R90: `BitSize`, its definition, and the consequences the rule derives. -/
def Obligations.BitSizeIsTheMinimalWidth : Prop :=
  bitSize 0 = 1 ∧ (∀ v, 0 < v → 2 ^ (bitSize v - 1) ≤ v ∧ v < 2 ^ bitSize v) ∧ bitSize 1 = 1 ∧
    (∀ k, bitSize (2 ^ k) = k + 1) ∧ (∀ k, 1 ≤ k → bitSize (2 ^ k - 1) = k) ∧
    (∀ v w, 1 ≤ w → (bitSize v ≤ w ↔ v < 2 ^ w)) ∧
    ∀ C v, 1 ≤ C → v < 2 ^ C → 1 ≤ bitSize v ∧ bitSize v ≤ C

/-- 40_primitives.md R95: `Insert` by its formula, and the laws the rule derives. -/
def Obligations.InsertReplacesExactlyTheField : Prop :=
  ∀ C b i w v : Nat, b < 2 ^ C → i + w ≤ C →
    insertField C b i w v =
      (b &&& (2 ^ C - 1 - (2 ^ (i + w) - 2 ^ i))) ||| ((v * 2 ^ i) &&& (2 ^ (i + w) - 2 ^ i)) ∧
    insertField C b i w v < 2 ^ C ∧
    insertField C b i w v = insertField C b i w (v % 2 ^ w) ∧
    extractField (insertField C b i w v) i w = v % 2 ^ w ∧
    insertField C b i w v &&& (2 ^ C - 1 - (2 ^ (i + w) - 2 ^ i)) = b &&& (2 ^ C - 1 - (2 ^ (i + w) - 2 ^ i)) ∧
    insertField C (insertField C b i w v) i w v = insertField C b i w v ∧
    insertField C b i w (extractField b i w) = b ∧
    insertField C b 0 C v = v % 2 ^ C

/-- 44_chunked.md R140: `ChunkForBit`, the values the rule lists, and its range: that the result is in `0..n-1` and the
subtraction never goes negative is the sentence the rule marks as derived from `floor(g/C) ≤ n-1`. The value listed at
global bit `C` is in the rule's domain for `n ≥ 2` only. At `n = 1` the model's natural subtraction gives 0 on both sides, of
which the rule says nothing. -/
def Obligations.ChunkForBitCountsFromTheLastElement : Prop :=
  ∀ (p : Params) (n g : Nat), g < n * p.capacity.bits →
    chunkForBit p.capacity.bits n g + g / p.capacity.bits = n - 1 ∧ chunkForBit p.capacity.bits n g < n ∧
    chunkForBit p.capacity.bits n 0 = n - 1 ∧ chunkForBit p.capacity.bits n (p.capacity.bits - 1) = n - 1 ∧
    chunkForBit p.capacity.bits n p.capacity.bits = n - 2 ∧ chunkForBit p.capacity.bits n (n * p.capacity.bits - 1) = 0

/-! ### The single-word instructions -/

/-- 40_primitives.md R98: `BSIZE`: its encoding, its result (the minimal number of bits, 1 for 0) for every operand, and
that nothing but the response changes. -/
def Obligations.BsizeAnswersTheMinimalWidth : Prop :=
  (∀ (hasCset : Bool) (w : BitVec 32), decode hasCset w = .ok .bsize ↔ w = 0x10000000#32) ∧
  ∀ s : State, ∃ z : BitVec 7,
    exec .bsize s = .next { s with port := Command.idle, responses := s.responses ++ [.ok (.size z)] } ∧
    (s.valueOperand = 0 → z.toNat = 1) ∧
    (0 < s.valueOperand → 2 ^ (z.toNat - 1) ≤ s.valueOperand ∧ s.valueOperand < 2 ^ z.toNat) ∧
    1 ≤ z.toNat ∧ z.toNat ≤ s.cap

/-- 41_scalar.md R110: `GET`: its encoding, its two errors and when, and otherwise the field, zero-extended; nothing but
the response changes. -/
def Obligations.GetAnswersTheField : Prop :=
  ∀ width indent : Nat,
  (∀ (hasCset : Bool) (w : BitVec 32), decode hasCset w = .ok (.get width indent) ↔ ctlFields w = ⟨2, width, 0, indent⟩) ∧
  ∀ s : State,
    (width = 0 → exec (.get width indent) s =
      .next { s with port := Command.idle, responses := s.responses ++ [.error .badOperand] }) ∧
    (0 < width → s.cap < indent % s.cap + width → exec (.get width indent) s =
      .next { s with port := Command.idle, responses := s.responses ++ [.error .rangeError] }) ∧
    (0 < width → indent % s.cap + width ≤ s.cap → ∃ r : Word,
      exec (.get width indent) s = .next { s with port := Command.idle, responses := s.responses ++ [.ok (.res r)] } ∧
      r.toNat = s.bitsOperand / 2 ^ (indent % s.cap) % 2 ^ width)

/-- 41_scalar.md R111: `SET`: its encoding, its errors and when, and otherwise the word with the field replaced and every
other bit kept; nothing but the response changes. A value fits `width ≥ 1` bits when it is below `2^width`
(40_primitives.md R90). -/
def Obligations.SetAnswersTheWordWithTheFieldReplaced : Prop :=
  ∀ width indent : Nat,
  (∀ (hasCset : Bool) (w : BitVec 32), decode hasCset w = .ok (.set width indent) ↔ ctlFields w = ⟨3, width, 0, indent⟩) ∧
  ∀ s : State,
    (width = 0 → exec (.set width indent) s =
      .next { s with port := Command.idle, responses := s.responses ++ [.error .badOperand] }) ∧
    (0 < width → 2 ^ width ≤ s.valueOperand ∨ s.cap < indent % s.cap + width → exec (.set width indent) s =
      .next { s with port := Command.idle, responses := s.responses ++ [.error .overflowError] }) ∧
    (0 < width → s.valueOperand < 2 ^ width → indent % s.cap + width ≤ s.cap → ∃ r : Word,
      exec (.set width indent) s = .next { s with port := Command.idle, responses := s.responses ++ [.ok (.res r)] } ∧
      ∀ t, r.getLsbD t =
        if indent % s.cap ≤ t ∧ t < indent % s.cap + width then s.valueOperand.testBit (t - indent % s.cap)
        else s.bitsOperand.testBit t)

/-- 41_scalar.md R112: `SET` then `GET` gives the value back and keeps every bit outside the field, a second `SET` of the
same value changes nothing, and the full-width field at 0 stores and retrieves the whole word. -/
def Obligations.GetAfterSetAndSetTwice : Prop :=
  ∀ (width indent : Nat) (s : State), 0 < width → s.valueOperand < 2 ^ width → indent % s.cap + width ≤ s.cap →
    ∃ r : Word,
      exec (.set width indent) s = .next { s with port := Command.idle, responses := s.responses ++ [.ok (.res r)] } ∧
      (∀ t, t < indent % s.cap ∨ indent % s.cap + width ≤ t → r.getLsbD t = s.bitsOperand.testBit t) ∧
      (∀ s' : State, s'.params = s.params → s'.port.bits = r → ∃ v : Word,
        exec (.get width indent) s' =
          .next { s' with port := Command.idle, responses := s'.responses ++ [.ok (.res v)] } ∧
        v.toNat = s.valueOperand) ∧
      (∀ s' : State, s'.params = s.params → s'.port.bits = r → s'.port.value = s.port.value →
        exec (.set width indent) s' =
          .next { s' with port := Command.idle, responses := s'.responses ++ [.ok (.res r)] }) ∧
      (width = s.cap → r.toNat = s.valueOperand)

/-- 70_reset_and_hazards.md R198: fields are accumulated by the host passing each result on; a second `SET` of a field
disjoint from the first keeps the first. -/
def Obligations.ChainedSetsKeepEarlierFields : Prop :=
  ∀ (w₁ i₁ w₂ i₂ : Nat) (s s' : State), 0 < w₁ → 0 < w₂ → s.valueOperand < 2 ^ w₁ → s'.valueOperand < 2 ^ w₂ →
    s'.params = s.params → i₁ % s.cap + w₁ ≤ s.cap → i₂ % s.cap + w₂ ≤ s.cap →
    (i₁ % s.cap + w₁ ≤ i₂ % s.cap ∨ i₂ % s.cap + w₂ ≤ i₁ % s.cap) →
    ∃ r₁ : Word,
      exec (.set w₁ i₁) s = .next { s with port := Command.idle, responses := s.responses ++ [.ok (.res r₁)] } ∧
      (s'.port.bits = r₁ → ∃ r₂ : Word,
        exec (.set w₂ i₂) s' = .next { s' with port := Command.idle, responses := s'.responses ++ [.ok (.res r₂)] } ∧
        r₂.toNat / 2 ^ (i₁ % s.cap) % 2 ^ w₁ = s.valueOperand ∧ r₂.toNat / 2 ^ (i₂ % s.cap) % 2 ^ w₂ = s'.valueOperand)

/-- 30_encoding.md R65: a single-word operation uses `indent` modulo `CAPACITY` only, whatever its other bits. -/
def Obligations.WordIndentWrapsModuloCapacity : Prop :=
  ∀ (width n indent indent' : Nat) (s : State), indent % s.cap = indent' % s.cap →
    exec (.get width indent) s = exec (.get width indent') s ∧
    exec (.set width indent) s = exec (.set width indent') s ∧
    exec (.getb width n indent) s = exec (.getb width n indent') s ∧
    exec (.setb width n indent) s = exec (.setb width n indent') s

/-- 42_bulk.md R120: `GETB`: its encoding, its errors and when, and otherwise exactly `n` elements, element `k` the field
`k`; a count that does not fit is rejected, never clamped; nothing but the response changes. -/
def Obligations.GetbAnswersEveryField : Prop :=
  ∀ width n indent : Nat,
  (∀ (hasCset : Bool) (w : BitVec 32),
    decode hasCset w = .ok (.getb width n indent) ↔ ctlFields w = ⟨4, width, n, indent⟩) ∧
  ∀ s : State,
    (width = 0 → exec (.getb width n indent) s =
      .next { s with port := Command.idle, responses := s.responses ++ [.error .badOperand] }) ∧
    (0 < width → s.cap < indent % s.cap + n * width → exec (.getb width n indent) s =
      .next { s with port := Command.idle, responses := s.responses ++ [.error .overflowError] }) ∧
    (0 < width → indent % s.cap + n * width ≤ s.cap → ∃ vs : List Word,
      exec (.getb width n indent) s =
        .next { s with port := Command.idle, responses := s.responses ++ [.ok (.seqOut vs)] } ∧
      vs.length = n ∧
      ∀ k, k < n → (vs.getD k 0).toNat = s.bitsOperand / 2 ^ (indent % s.cap + k * width) % 2 ^ width)

/-- 42_bulk.md R121: `SETB`: its encoding, its errors and when (one oversize element anywhere rejects the whole write),
and otherwise the word with field `k` replaced by element `k` and every bit outside the fields kept; nothing but the
response changes. -/
def Obligations.SetbAnswersTheWordWithTheFieldsReplaced : Prop :=
  ∀ width n indent : Nat,
  (∀ (hasCset : Bool) (w : BitVec 32),
    decode hasCset w = .ok (.setb width n indent) ↔ ctlFields w = ⟨5, width, n, indent⟩) ∧
  ∀ s : State,
    (width = 0 → exec (.setb width n indent) s =
      .next { s with port := Command.idle, responses := s.responses ++ [.error .badOperand] }) ∧
    (0 < width → (s.cap < indent % s.cap + n * width ∨ ∃ k, k < n ∧ 2 ^ width ≤ s.seqLane k) →
      exec (.setb width n indent) s =
        .next { s with port := Command.idle, responses := s.responses ++ [.error .overflowError] }) ∧
    (0 < width → indent % s.cap + n * width ≤ s.cap → (∀ k, k < n → s.seqLane k < 2 ^ width) → ∃ r : Word,
      exec (.setb width n indent) s = .next { s with port := Command.idle, responses := s.responses ++ [.ok (.res r)] } ∧
      ∀ t, r.getLsbD t =
        if indent % s.cap ≤ t ∧ t < indent % s.cap + n * width then
          (s.seqLane ((t - indent % s.cap) / width)).testBit ((t - indent % s.cap) % width)
        else s.bitsOperand.testBit t)

/-- 42_bulk.md R122 (its second and third laws are marked as derived): `SETB` then `GETB` gives the sequence back, `GETB` then `SETB` gives the word back, and `SETB` of one
element is `SET`. -/
def Obligations.BulkRoundTrips : Prop :=
  (∀ (width n indent : Nat) (s : State), 0 < width → indent % s.cap + n * width ≤ s.cap →
    (∀ k, k < n → s.seqLane k < 2 ^ width) → ∃ r : Word,
      exec (.setb width n indent) s = .next { s with port := Command.idle, responses := s.responses ++ [.ok (.res r)] } ∧
      ∀ s' : State, s'.params = s.params → s'.port.bits = r → ∃ vs : List Word,
        exec (.getb width n indent) s' =
          .next { s' with port := Command.idle, responses := s'.responses ++ [.ok (.seqOut vs)] } ∧
        vs.map BitVec.toNat = s.seqOperand n) ∧
  (∀ (width n indent : Nat) (s : State), 0 < width → indent % s.cap + n * width ≤ s.cap → ∃ vs : List Word,
      exec (.getb width n indent) s =
        .next { s with port := Command.idle, responses := s.responses ++ [.ok (.seqOut vs)] } ∧
      ∀ s' : State, s'.params = s.params → s'.port.bits = s.port.bits → s'.port.seq = vs → ∃ r : Word,
        exec (.setb width n indent) s' =
          .next { s' with port := Command.idle, responses := s'.responses ++ [.ok (.res r)] } ∧
        r.toNat = s.bitsOperand) ∧
  ∀ (width indent : Nat) (s : State), s.port.seq = [s.port.value] →
    exec (.setb width 1 indent) s = exec (.set width indent) s

/-- 43_search_render.md R130: `IDX`: its encoding, its errors and when (before any scanning), and otherwise the index of
the first of the `floor(C/width)` whole fields that is `value`, or not found with index `0x7F`; nothing but the response
changes. -/
def Obligations.IdxAnswersTheFirstMatch : Prop :=
  ∀ width : Nat,
  (∀ (hasCset : Bool) (w : BitVec 32), decode hasCset w = .ok (.idx width) ↔ ctlFields w = ⟨6, width, 0, 0⟩) ∧
  ∀ s : State,
    (width = 0 → exec (.idx width) s =
      .next { s with port := Command.idle, responses := s.responses ++ [.error .badOperand] }) ∧
    (0 < width → 2 ^ width ≤ s.valueOperand → exec (.idx width) s =
      .next { s with port := Command.idle, responses := s.responses ++ [.error .overflowError] }) ∧
    (0 < width → s.valueOperand < 2 ^ width → ∃ (found : Bool) (index : BitVec 7),
      exec (.idx width) s =
        .next { s with port := Command.idle, responses := s.responses ++ [.ok (.search found index)] } ∧
      (found = true → index.toNat < s.cap / width ∧
        s.bitsOperand / 2 ^ (index.toNat * width) % 2 ^ width = s.valueOperand ∧
        ∀ k, k < index.toNat → s.bitsOperand / 2 ^ (k * width) % 2 ^ width ≠ s.valueOperand) ∧
      (found = false → index = 0x7F#7 ∧
        ∀ k, k < s.cap / width → s.bitsOperand / 2 ^ (k * width) % 2 ^ width ≠ s.valueOperand))

/-- 43_search_render.md R131: `STR`: its encoding, and for every operand exactly `C` symbols, most significant bit first;
nothing but the response changes. -/
def Obligations.StrRendersTheWord : Prop :=
  (∀ (hasCset : Bool) (w : BitVec 32), decode hasCset w = .ok .str ↔ w = 0x70000000#32) ∧
  ∀ s : State, ∃ cs : List Symbol,
    exec .str s = .next { s with port := Command.idle, responses := s.responses ++ [.ok (.str cs)] } ∧
    cs.length = s.cap ∧
    ∀ p, p < s.cap → cs[p]? = some (if s.bitsOperand.testBit (s.cap - 1 - p) then .one else .zero)

/-! ### The chunked instructions -/

/-- 44_chunked.md R144: `CLOC`: its encoding, its errors and when, and otherwise the chunk index; the chunk memory is not
accessed and nothing but the response changes. -/
def Obligations.ClocAnswersTheChunkIndex : Prop :=
  ∀ n indent : Nat,
  (∀ (hasCset : Bool) (w : BitVec 32), decode hasCset w = .ok (.cloc n indent) ↔ ctlFields w = ⟨8, 0, n, indent⟩) ∧
  ∀ s : State,
    (s.params.nchunk < n → exec (.cloc n indent) s =
      .next { s with port := Command.idle, responses := s.responses ++ [.error .badOperand] }) ∧
    (n ≤ s.params.nchunk → n * s.cap ≤ indent → exec (.cloc n indent) s =
      .next { s with port := Command.idle, responses := s.responses ++ [.error .overflowError] }) ∧
    (n ≤ s.params.nchunk → n < 2 ^ 7 → indent < n * s.cap → ∃ z : BitVec 7,
      exec (.cloc n indent) s = .next { s with port := Command.idle, responses := s.responses ++ [.ok (.chunk z)] } ∧
      z.toNat + indent / s.cap + 1 = n)

/-- 44_chunked.md R145: `CGET`: its encoding, its errors and when, and otherwise the field, bit `t` of it being bit
`(indent + t) mod C` of the chunk that holds global bit `indent + t`; the `ceil((off + width)/C)` chunks of the span are
read once each, in descending index order, and nothing else changes but the response. -/
def Obligations.CgetAnswersTheChunkedField : Prop :=
  ∀ width n indent : Nat,
  (∀ (hasCset : Bool) (w : BitVec 32),
    decode hasCset w = .ok (.cget width n indent) ↔ ctlFields w = ⟨9, width, n, indent⟩) ∧
  ∀ s : State,
    (width = 0 ∨ s.params.nchunk < n → exec (.cget width n indent) s =
      .next { s with port := Command.idle, responses := s.responses ++ [.error .badOperand] }) ∧
    (0 < width → n ≤ s.params.nchunk → n * s.cap < indent + width ∨ s.rcap < width → exec (.cget width n indent) s =
      .next { s with port := Command.idle, responses := s.responses ++ [.error .overflowError] }) ∧
    (0 < width → n ≤ s.params.nchunk → indent + width ≤ n * s.cap → width ≤ s.rcap → ∃ r : Word,
      exec (.cget width n indent) s =
        .next { s with
          port := Command.idle
          responses := s.responses ++ [.ok (.cres r)]
          accesses := s.accesses ++
            (List.range ((indent % s.cap + width + s.cap - 1) / s.cap)).map fun m => .read (n - 1 - indent / s.cap - m) } ∧
      r.toNat < 2 ^ width ∧
      ∀ t, t < width → r.getLsbD t = (s.chunk (n - 1 - (indent + t) / s.cap)).testBit ((indent + t) % s.cap))

/-- 44_chunked.md R146 (the rule is marked as derived): whenever `CGET` returns `OK`, the result is the field of the global vector. -/
def Obligations.CgetIsExtractOfTheVector : Prop :=
  ∀ (width n indent : Nat) (s t : State) (r : Word), exec (.cget width n indent) s = .next t →
    t.responses = s.responses ++ [.ok (.cres r)] → r.toNat = s.vec n / 2 ^ indent % 2 ^ width

/-- 44_chunked.md R148 (the spec's own operation, decision D18): `CSET`: its encoding, its errors and when, and otherwise the chunk memory with exactly the bits
of the field replaced; each chunk of the span is read then written once, downward in index; chunks outside the span are
not accessed, and nothing else changes but the response. -/
def Obligations.CsetReplacesTheChunkedField : Prop :=
  ∀ width n indent : Nat,
  (∀ (hasCset : Bool) (w : BitVec 32),
    decode hasCset w = .ok (.cset width n indent) ↔ hasCset = true ∧ ctlFields w = ⟨10, width, n, indent⟩) ∧
  ∀ s : State,
    (s.params.hasCset = false → exec (.cset width n indent) s =
      .next { s with port := Command.idle, responses := s.responses ++ [.error .illegalOp] }) ∧
    (s.params.hasCset = true → width = 0 ∨ s.params.nchunk < n → exec (.cset width n indent) s =
      .next { s with port := Command.idle, responses := s.responses ++ [.error .badOperand] }) ∧
    (s.params.hasCset = true → 0 < width → n ≤ s.params.nchunk →
      2 ^ width ≤ s.cvalueOperand ∨ n * s.cap < indent + width ∨ s.rcap < width → exec (.cset width n indent) s =
        .next { s with port := Command.idle, responses := s.responses ++ [.error .overflowError] }) ∧
    (s.params.hasCset = true → 0 < width → n ≤ s.params.nchunk → s.cvalueOperand < 2 ^ width →
      indent + width ≤ n * s.cap → width ≤ s.rcap → ∃ t : State,
      exec (.cset width n indent) s = .next t ∧
      t = { s with
        ch := t.ch
        port := Command.idle
        responses := s.responses ++ [.ok .done]
        accesses := s.accesses ++
          (List.range ((indent % s.cap + width + s.cap - 1) / s.cap)).flatMap fun m =>
            [.read (n - 1 - indent / s.cap - m),
              .write (n - 1 - indent / s.cap - m) (t.ch.at (n - 1 - indent / s.cap - m))] } ∧
      t.ch.seed = s.ch.seed ∧
      (∀ j, n - 1 - indent / s.cap < j ∨ j < n - 1 - (indent + width - 1) / s.cap → t.ch.at j = s.ch.at j) ∧
      ∀ j b, j < n → b < s.cap → (t.chunk j).testBit b =
        if indent ≤ (n - 1 - j) * s.cap + b ∧ (n - 1 - j) * s.cap + b < indent + width then
          s.cvalueOperand.testBit ((n - 1 - j) * s.cap + b - indent)
        else (s.chunk j).testBit b)

/-- 44_chunked.md R148, its derived effect: on the global vector `CSET` is the single-word insert. -/
def Obligations.CsetIsInsertIntoTheVector : Prop :=
  ∀ (width n indent : Nat) (s t : State), exec (.cset width n indent) s = .next t →
    t.responses = s.responses ++ [.ok .done] →
      t.vec n = (s.vec n &&& (2 ^ (n * s.cap) - 1 - (2 ^ (indent + width) - 2 ^ indent))) ||| (s.cvalueOperand * 2 ^ indent)

/-- 44_chunked.md R148: a `CGET` that follows a `CSET` with the same `n`, `indent` and `width` returns `cvalue`. -/
def Obligations.CgetAfterCset : Prop :=
  ∀ (width n indent : Nat) (s t : State), exec (.cset width n indent) s = .next t →
    t.responses = s.responses ++ [.ok .done] → ∃ (u : State) (r : Word),
      exec (.cget width n indent) t = .next u ∧ u.responses = t.responses ++ [.ok (.cres r)] ∧ u.ch = t.ch ∧
      r.toNat = s.cvalueOperand

/-- 44_chunked.md R149: `CSTR`: its encoding, its one error and when, and otherwise `n*C` symbols, the chunks in storage
order, each most significant bit first; `CH[0]` to `CH[n-1]` are read once each, ascending, and nothing else changes but the response. -/
def Obligations.CstrRendersTheArray : Prop :=
  ∀ n : Nat,
  (∀ (hasCset : Bool) (w : BitVec 32), decode hasCset w = .ok (.cstr n) ↔ ctlFields w = ⟨11, 0, n, 0⟩) ∧
  ∀ s : State,
    (s.params.nchunk < n → exec (.cstr n) s =
      .next { s with port := Command.idle, responses := s.responses ++ [.error .badOperand] }) ∧
    (n ≤ s.params.nchunk → ∃ cs : List Symbol,
      exec (.cstr n) s =
        .next { s with
          port := Command.idle
          responses := s.responses ++ [.ok (.str cs)]
          accesses := s.accesses ++ (List.range n).map .read } ∧
      cs.length = n * s.cap ∧
      ∀ j p, j < n → p < s.cap →
        cs[j * s.cap + p]? = some (if (s.chunk j).testBit (s.cap - 1 - p) then .one else .zero))

/-- 43_search_render.md R131 and 44_chunked.md R149, what they derive: read as a binary numeral the string of `STR` is
`bits`, and that of `CSTR` is the global vector. -/
def Obligations.RenderingsReadAsNumerals : Prop :=
  ∀ (s t : State) (cs : List Symbol), t.responses = s.responses ++ [.ok (.str cs)] →
    (exec .str s = .next t → numeral cs = s.bitsOperand) ∧ ∀ n, exec (.cstr n) s = .next t → numeral cs = s.vec n

/-- 44_chunked.md R141 (marked as derived), 20_memory.md R43: global bit `g` is bit `g mod C` of chunk `n-1-floor(g/C)`, and `CSTR` shows it at
position `n*C - 1 - g`. -/
def Obligations.GlobalBitsAndTheirRendering : Prop :=
  ∀ (n g : Nat) (s : State), g < n * s.cap →
    (s.vec n).testBit g = (s.chunk (n - 1 - g / s.cap)).testBit (g % s.cap) ∧
    ∀ (t : State) (cs : List Symbol), exec (.cstr n) s = .next t → t.responses = s.responses ++ [.ok (.str cs)] →
      cs[n * s.cap - 1 - g]? = some (if (s.vec n).testBit g then .one else .zero)
end

