-- ==== Sys2Proof/Laws/Primitives.lean ====
section
/-! SUPPORT. The width and mask primitives as arithmetic and bit by bit; each is unfolded here and nowhere else. -/

namespace Sys2Proof

theorem Capacity.bits_pos (c : Capacity) : 0 < c.bits := by cases c <;> decide
theorem Capacity.bits_le (c : Capacity) : c.bits ≤ 64 := by cases c <;> decide
theorem Capacity.bits_ge (c : Capacity) : 8 ≤ c.bits := by cases c <;> decide

namespace Machine

theorem toWord_toNat {a : Nat} (h : a < 2 ^ 64) : (toWord a).toNat = a := by
  rw [toWord, BitVec.toNat_ofNat, Nat.mod_eq_of_lt h]

theorem toWord_toNat_of_lt_capacity {c : Capacity} {a : Nat} (h : a < 2 ^ c.bits) : (toWord a).toNat = a :=
  toWord_toNat (Nat.lt_of_lt_of_le h (Nat.pow_le_pow_right (by decide) c.bits_le))

theorem truncBits_lt (W a : Nat) : truncBits W a < 2 ^ W := Nat.mod_lt _ (Nat.two_pow_pos W)

@[simp] theorem truncBits_truncBits (W a : Nat) : truncBits W (truncBits W a) = truncBits W a := by
  simp [truncBits]

theorem truncBits_of_lt {W a : Nat} (h : a < 2 ^ W) : truncBits W a = a := Nat.mod_eq_of_lt h

theorem testBit_truncBits (W a t : Nat) : (truncBits W a).testBit t = (decide (t < W) && a.testBit t) := by
  simp [truncBits, Nat.testBit_mod_two_pow]

theorem testBit_lowMask (w t : Nat) : (lowMask w).testBit t = decide (t < w) := by
  simp [lowMask, Nat.testBit_two_pow_sub_one]

theorem testBit_fieldMask (i w t : Nat) : (fieldMask i w).testBit t = (decide (i ≤ t) && decide (t < i + w)) := by
  simp only [fieldMask, Nat.testBit_shiftLeft, testBit_lowMask]
  by_cases h : i ≤ t <;> simp [h]
  omega

/-- `Extract` is a division and a remainder (40_primitives.md R94). -/
theorem extractField_eq (b i w : Nat) : extractField b i w = b / 2 ^ i % 2 ^ w := by
  simp [extractField, lowMask, Nat.and_two_pow_sub_one_eq_mod, Nat.shiftRight_eq_div_pow]

theorem extractField_lt (b i w : Nat) : extractField b i w < 2 ^ w := by
  rw [extractField_eq]; exact Nat.mod_lt _ (Nat.two_pow_pos w)

theorem testBit_extractField (b i w t : Nat) :
    (extractField b i w).testBit t = (decide (t < w) && b.testBit (i + t)) := by
  simp only [extractField, Nat.testBit_and, Nat.testBit_shiftRight, testBit_lowMask]
  exact Bool.and_comm _ _

theorem testBit_complBits {W a : Nat} (h : a < 2 ^ W) (t : Nat) :
    (complBits W a).testBit t = (decide (t < W) && !a.testBit t) := by
  rw [complBits, Nat.sub_sub, Nat.add_comm 1 a]
  exact Nat.testBit_two_pow_sub_succ h t

theorem fieldMask_lt {C i w : Nat} (h : i + w ≤ C) : fieldMask i w < 2 ^ C := by
  apply Nat.lt_pow_two_of_testBit
  intro t ht
  simp only [testBit_fieldMask]
  have : ¬ t < i + w := by omega
  simp [this]

/-- `Insert` bit by bit (40_primitives.md R95): the field's bits from the value, every other bit from the word. -/
theorem testBit_insertField {C b i w : Nat} (v : Nat) (hb : b < 2 ^ C) (h : i + w ≤ C) (t : Nat) :
    (insertField C b i w v).testBit t =
      if i ≤ t ∧ t < i + w then v.testBit (t - i) else b.testBit t := by
  have hbt : C ≤ t → b.testBit t = false := fun ht =>
    Nat.testBit_lt_two_pow (Nat.lt_of_lt_of_le hb (Nat.pow_le_pow_right (by decide) ht))
  simp only [insertField, Nat.testBit_or, Nat.testBit_and, Nat.testBit_shiftLeft, testBit_fieldMask,
    testBit_complBits (fieldMask_lt h)]
  by_cases h1 : i ≤ t <;> by_cases h2 : t < i + w <;> by_cases h3 : t < C <;>
    simp [h1, h2, h3, Nat.le_of_not_lt, hbt]

theorem insertField_lt {C b i w : Nat} (v : Nat) (hb : b < 2 ^ C) (h : i + w ≤ C) : insertField C b i w v < 2 ^ C := by
  apply Nat.lt_pow_two_of_testBit
  intro t ht
  rw [testBit_insertField v hb h, if_neg (by omega)]
  exact Nat.testBit_lt_two_pow (Nat.lt_of_lt_of_le hb (Nat.pow_le_pow_right (by decide) ht))

theorem bitSize_pos (v : Nat) : 1 ≤ bitSize v := by
  unfold bitSize; split <;> omega

/-- A value fits `w ≥ 1` bits when it is below `2^w` (40_primitives.md R90). -/
theorem bitSize_le_iff {v w : Nat} (hw : 1 ≤ w) : bitSize v ≤ w ↔ v < 2 ^ w := by
  unfold bitSize
  split
  · next h => subst h; simp [hw]
  · next h => rw [Nat.add_one_le_iff, Nat.log2_lt h]

@[simp] theorem render_length (C b : Nat) : (render C b).length = C := by simp [render]

end Machine

end Sys2Proof
end

