-- ==== Sys2Proof/Laws/State.lean ====
section
/-! SUPPORT. One lemma per field and update of `State`, so that no proof unfolds a record update. -/

namespace Sys2Proof.Machine

variable (s : State)

@[simp] theorem State.note_params (a : Access) : (s.note a).params = s.params := rfl
@[simp] theorem State.note_ch (a : Access) : (s.note a).ch = s.ch := rfl
@[simp] theorem State.note_port (a : Access) : (s.note a).port = s.port := rfl
@[simp] theorem State.note_responses (a : Access) : (s.note a).responses = s.responses := rfl
@[simp] theorem State.note_accesses (a : Access) : (s.note a).accesses = s.accesses ++ [a] := rfl
@[simp] theorem State.note_inbox (a : Access) : (s.note a).inbox = s.inbox := rfl
@[simp] theorem State.note_draws (a : Access) : (s.note a).draws = s.draws := rfl

@[simp] theorem State.storeChunk_params (j v : Nat) : (s.storeChunk j v).params = s.params := rfl
@[simp] theorem State.storeChunk_ch (j v : Nat) : (s.storeChunk j v).ch = s.ch.put j (toWord (truncBits s.cap v)) := rfl
@[simp] theorem State.storeChunk_port (j v : Nat) : (s.storeChunk j v).port = s.port := rfl
@[simp] theorem State.storeChunk_responses (j v : Nat) : (s.storeChunk j v).responses = s.responses := rfl
@[simp] theorem State.storeChunk_accesses (j v : Nat) : (s.storeChunk j v).accesses = s.accesses := rfl
@[simp] theorem State.storeChunk_inbox (j v : Nat) : (s.storeChunk j v).inbox = s.inbox := rfl
@[simp] theorem State.storeChunk_draws (j v : Nat) : (s.storeChunk j v).draws = s.draws := rfl

@[simp] theorem State.memWrite_params (j v : Nat) : (s.memWrite j v).params = s.params := rfl
@[simp] theorem State.memWrite_ch (j v : Nat) : (s.memWrite j v).ch = s.ch.put j (toWord (truncBits s.cap v)) := rfl
@[simp] theorem State.memWrite_port (j v : Nat) : (s.memWrite j v).port = s.port := rfl
@[simp] theorem State.memWrite_responses (j v : Nat) : (s.memWrite j v).responses = s.responses := rfl
@[simp] theorem State.memWrite_accesses (j v : Nat) : (s.memWrite j v).accesses = s.accesses ++ [.write j (toWord (truncBits s.cap v))] := rfl
@[simp] theorem State.memWrite_inbox (j v : Nat) : (s.memWrite j v).inbox = s.inbox := rfl
@[simp] theorem State.memWrite_draws (j v : Nat) : (s.memWrite j v).draws = s.draws := rfl

@[simp] theorem State.answer_params (r : Response) : (s.answer r).params = s.params := rfl
@[simp] theorem State.answer_ch (r : Response) : (s.answer r).ch = s.ch := rfl
@[simp] theorem State.answer_port (r : Response) : (s.answer r).port = Command.idle := rfl
@[simp] theorem State.answer_responses (r : Response) : (s.answer r).responses = s.responses ++ [r] := rfl
@[simp] theorem State.answer_accesses (r : Response) : (s.answer r).accesses = s.accesses := rfl
@[simp] theorem State.answer_inbox (r : Response) : (s.answer r).inbox = s.inbox := rfl
@[simp] theorem State.answer_draws (r : Response) : (s.answer r).draws = s.draws := rfl

@[simp] theorem State.accept_params (c : Command) : (s.accept c).params = s.params := rfl
@[simp] theorem State.accept_ch (c : Command) : (s.accept c).ch = s.ch := rfl
@[simp] theorem State.accept_port (c : Command) : (s.accept c).port = c := rfl
@[simp] theorem State.accept_responses (c : Command) : (s.accept c).responses = s.responses := rfl
@[simp] theorem State.accept_accesses (c : Command) : (s.accept c).accesses = [] := rfl
@[simp] theorem State.accept_inbox (c : Command) : (s.accept c).inbox = s.inbox := rfl
@[simp] theorem State.accept_draws (c : Command) : (s.accept c).draws = s.draws := rfl

@[simp] theorem State.withFetchWord_params (nbits w : Nat) : (s.withFetchWord nbits w).params = s.params := rfl
@[simp] theorem State.withFetchWord_ch (nbits w : Nat) : (s.withFetchWord nbits w).ch = s.ch := rfl
@[simp] theorem State.withFetchWord_port (nbits w : Nat) : (s.withFetchWord nbits w).port = s.port := rfl
@[simp] theorem State.withFetchWord_responses (nbits w : Nat) : (s.withFetchWord nbits w).responses = s.responses := rfl
@[simp] theorem State.withFetchWord_accesses (nbits w : Nat) : (s.withFetchWord nbits w).accesses = s.accesses := rfl
@[simp] theorem State.withFetchWord_inbox (nbits w : Nat) : (s.withFetchWord nbits w).inbox = .command (commandOfWord nbits w) :: s.inbox := rfl
@[simp] theorem State.withFetchWord_draws (nbits w : Nat) : (s.withFetchWord nbits w).draws = s.draws := rfl

@[simp] theorem State.note_cap (a : Access) : (s.note a).cap = s.cap := rfl
@[simp] theorem State.note_rcap (a : Access) : (s.note a).rcap = s.rcap := rfl
@[simp] theorem State.storeChunk_cap (j v : Nat) : (s.storeChunk j v).cap = s.cap := rfl
@[simp] theorem State.storeChunk_rcap (j v : Nat) : (s.storeChunk j v).rcap = s.rcap := rfl
@[simp] theorem State.memWrite_cap (j v : Nat) : (s.memWrite j v).cap = s.cap := rfl
@[simp] theorem State.memWrite_rcap (j v : Nat) : (s.memWrite j v).rcap = s.rcap := rfl
@[simp] theorem State.answer_cap (r : Response) : (s.answer r).cap = s.cap := rfl
@[simp] theorem State.answer_rcap (r : Response) : (s.answer r).rcap = s.rcap := rfl
@[simp] theorem State.accept_cap (c : Command) : (s.accept c).cap = s.cap := rfl
@[simp] theorem State.accept_rcap (c : Command) : (s.accept c).rcap = s.rcap := rfl
@[simp] theorem State.withFetchWord_cap (nbits w : Nat) : (s.withFetchWord nbits w).cap = s.cap := rfl
@[simp] theorem State.withFetchWord_rcap (nbits w : Nat) : (s.withFetchWord nbits w).rcap = s.rcap := rfl

@[simp] theorem State.memRead_fst (j : Nat) : (s.memRead j).1 = s.chunk j := rfl
@[simp] theorem State.memRead_snd (j : Nat) : (s.memRead j).2 = s.note (.read j) := rfl

@[simp] theorem State.note_chunk (a : Access) (j : Nat) : (s.note a).chunk j = s.chunk j := rfl
@[simp] theorem State.answer_chunk (r : Response) (j : Nat) : (s.answer r).chunk j = s.chunk j := rfl
@[simp] theorem State.accept_chunk (c : Command) (j : Nat) : (s.accept c).chunk j = s.chunk j := rfl

@[simp] theorem State.ret_eq (p : Payload) : s.ret p = .next (s.answer (.ok p)) := rfl
@[simp] theorem State.raise_eq (k : ErrorKind) : s.raise k = .next (s.answer (.error k)) := rfl

@[simp] theorem State.resetWith_params (p : Params) : (State.resetWith p).params = p := rfl
@[simp] theorem State.resetWith_ch (p : Params) : (State.resetWith p).ch = ⟨0, []⟩ := rfl
@[simp] theorem State.resetWith_port (p : Params) : (State.resetWith p).port = Command.idle := rfl
@[simp] theorem State.resetWith_responses (p : Params) : (State.resetWith p).responses = [] := rfl

/-- The three ways an instruction ends are told apart by their constructor. -/
@[simp] theorem Outcome.next_inj (a b : State) :
    (Host.Outcome.next a : Host.Outcome State Fault Refusal) = .next b ↔ a = b :=
  ⟨fun h => by cases h; rfl, fun h => h ▸ rfl⟩

end Sys2Proof.Machine
end

