-- ==== Sys2Proof/Laws/Memory.lean ====
section
/-! SUPPORT. The chunk memory: a read after a write, the writes that leave a chunk alone, and the canonical form. -/

namespace Sys2Proof.Machine

theorem cellAt_setCell_same (cs : List (Nat × Word)) (j : Nat) (v : Word) : cellAt (setCell cs j v) j = some v := by
  induction cs with
  | nil => simp [setCell, cellAt]
  | cons c cs ih =>
    obtain ⟨k, u⟩ := c
    simp only [setCell]
    split
    · simp [cellAt]
    · split
      · simp [cellAt]
      · have : k ≠ j := fun h => by simp_all
        simp [cellAt, this, ih]

theorem cellAt_setCell_other (cs : List (Nat × Word)) {j j' : Nat} (h : j' ≠ j) (v : Word) :
    cellAt (setCell cs j v) j' = cellAt cs j' := by
  induction cs with
  | nil => simp [setCell, cellAt, h.symm]
  | cons c cs ih =>
    obtain ⟨k, u⟩ := c
    simp only [setCell]
    split
    · simp [cellAt, h.symm]
    · split
      · next hk => subst hk; simp [cellAt, h.symm]
      · simp [cellAt, ih]

theorem mem_setCell {cs : List (Nat × Word)} {j : Nat} {v : Word} {c : Nat × Word} (h : c ∈ setCell cs j v) :
    c = (j, v) ∨ c ∈ cs := by
  induction cs with
  | nil => simpa [setCell] using h
  | cons d cs ih =>
    obtain ⟨k, u⟩ := d
    simp only [setCell] at h
    split at h
    · simpa using h
    · split at h
      · simp only [List.mem_cons] at h ⊢
        exact h.elim .inl fun h => .inr (.inr h)
      · simp only [List.mem_cons] at h ⊢
        rcases h with h | h
        · exact .inr (.inl h)
        · exact (ih h).elim .inl fun h => .inr (.inr h)

theorem setCell_rising {cs : List (Nat × Word)} (h : (cs.map Prod.fst).Pairwise (· < ·)) (j : Nat) (v : Word) :
    ((setCell cs j v).map Prod.fst).Pairwise (· < ·) := by
  induction cs with
  | nil => simp [setCell]
  | cons d cs ih =>
    obtain ⟨k, u⟩ := d
    simp only [List.map_cons, List.pairwise_cons] at h
    simp only [setCell]
    split
    · next hj =>
      simp only [List.map_cons, List.pairwise_cons, List.mem_cons, forall_eq_or_imp]
      exact ⟨⟨hj, fun a ha => Nat.lt_trans hj (h.1 a ha)⟩, h⟩
    · split
      · next hk => subst hk; simpa using h
      · next h1 h2 =>
        simp only [List.map_cons, List.pairwise_cons]
        refine ⟨fun a ha => ?_, ih h.2⟩
        obtain ⟨c, hc, rfl⟩ := List.mem_map.1 ha
        rcases mem_setCell hc with rfl | hc
        · simp only at h1 h2 ⊢; omega
        · exact h.1 _ (List.mem_map_of_mem hc)

@[simp] theorem Memory.at_put_same (m : Memory) (j : Nat) (v : Word) : (m.put j v).at j = v := by
  simp [Memory.at, Memory.put, cellAt_setCell_same]

theorem Memory.at_put_other (m : Memory) {j j' : Nat} (h : j' ≠ j) (v : Word) : (m.put j v).at j' = m.at j' := by
  simp [Memory.at, Memory.put, cellAt_setCell_other _ h]

@[simp] theorem Memory.put_seed (m : Memory) (j : Nat) (v : Word) : (m.put j v).seed = m.seed := rfl

/-- What the canonical form says. -/
theorem Memory.wf_iff (p : Params) (m : Memory) : m.wf p = true ↔
    (m.cells.map Prod.fst).Pairwise (· < ·) ∧
      ∀ c ∈ m.cells, c.1 < p.nchunk ∧ c.2.toNat < 2 ^ p.capacity.bits := by
  simp [Memory.wf]

/-- A write inside the chunk memory keeps the canonical form. -/
theorem Memory.put_wf {p : Params} {m : Memory} (h : m.wf p = true) {j : Nat} (hj : j < p.nchunk) {v : Word}
    (hv : v.toNat < 2 ^ p.capacity.bits) : (m.put j v).wf p = true := by
  rw [Memory.wf_iff] at h ⊢
  refine ⟨setCell_rising h.1 j v, fun c hc => ?_⟩
  rcases mem_setCell hc with rfl | hc
  · exact ⟨hj, hv⟩
  · exact h.2 c hc

theorem resetWith_memory_wf (p : Params) : (State.resetWith p).ch.wf p = true := by simp [Memory.wf]

theorem State.chunk_lt (s : State) (j : Nat) : s.chunk j < 2 ^ s.cap := truncBits_lt _ _

/-- `storeChunk` and `memWrite` put the low `CAPACITY` bits where a read finds them. -/
theorem State.storeChunk_chunk_same (s : State) (j v : Nat) : (s.storeChunk j v).chunk j = truncBits s.cap v := by
  simp [State.chunk, toWord_toNat_of_lt_capacity (truncBits_lt _ v)]

theorem State.storeChunk_chunk_other (s : State) {j j' : Nat} (h : j' ≠ j) (v : Nat) :
    (s.storeChunk j v).chunk j' = s.chunk j' := by
  simp [State.chunk, Memory.at_put_other _ h]

theorem State.memWrite_chunk_same (s : State) (j v : Nat) : (s.memWrite j v).chunk j = truncBits s.cap v :=
  s.storeChunk_chunk_same j v

theorem State.memWrite_chunk_other (s : State) {j j' : Nat} (h : j' ≠ j) (v : Nat) :
    (s.memWrite j v).chunk j' = s.chunk j' :=
  s.storeChunk_chunk_other h v

theorem State.storeChunk_wf {s : State} (h : s.ch.wf s.params = true) {j : Nat} (hj : j < s.params.nchunk) (v : Nat) :
    (s.storeChunk j v).ch.wf s.params = true :=
  Memory.put_wf h hj (by rw [toWord_toNat_of_lt_capacity (truncBits_lt _ v)]; exact truncBits_lt _ v)

theorem State.memWrite_wf {s : State} (h : s.ch.wf s.params = true) {j : Nat} (hj : j < s.params.nchunk) (v : Nat) :
    (s.memWrite j v).ch.wf s.params = true :=
  State.storeChunk_wf h hj v

end Sys2Proof.Machine
end

