-- ==== Sys2Proof/Laws/Loops.lean ====
section
/-! SUPPORT. What the loops of the operations answer or may touch: one lemma per loop, cited instead of unfolding it. -/

namespace Sys2Proof.Machine

/-- `s` and `t` differ at most in the chunk memory and in the accesses noted. -/
abbrev sameOutsideMemory (s t : State) : Prop :=
  t.params = s.params ∧ t.port = s.port ∧ t.responses = s.responses ∧ t.inbox = s.inbox ∧ t.draws = s.draws ∧
    t.ch.seed = s.ch.seed

/-- `t` is `s` after the accesses `as`, all reads below `k`: nothing but the note of them. -/
abbrev readsBelow (k : Nat) (s t : State) : Prop :=
  ∃ js : List Nat, (∀ j ∈ js, j < k) ∧ t = { s with accesses := s.accesses ++ js.map .read }

/-- The gathering loop reads chunks below `k` and changes nothing. -/
theorem gather_readsBelow (R width : Nat) (s : State) (acc got k : Nat) :
    readsBelow k s (gather R width s acc got k).2 := by
  induction k generalizing s acc got with
  | zero => exact ⟨[], by simp, by simp [gather]⟩
  | succ k ih =>
    rw [gather]
    split
    · obtain ⟨js, hjs, ht⟩ := ih (s.memRead k).2 (truncBits R (acc ||| ((s.memRead k).1 <<< got))) (got + s.cap)
      refine ⟨k :: js, ?_, ?_⟩
      · intro j hj
        rcases List.mem_cons.1 hj with rfl | hj
        · omega
        · have := hjs j hj; omega
      · rw [ht]; simp [State.note]
    · exact ⟨[], by simp, by simp⟩

/-- The scattering loop touches only chunks below `k`, and keeps the canonical form. -/
theorem scatter_frame (s : State) (off rem v k : Nat) :
    sameOutsideMemory s (scatter s off rem v k) ∧
      (∀ j, k ≤ j → (scatter s off rem v k).ch.at j = s.ch.at j) ∧
      (∃ as : List Access, (scatter s off rem v k).accesses = s.accesses ++ as ∧
        ∀ a ∈ as, (∃ j, a = .read j ∧ j < k) ∨ ∃ j w, a = .write j w ∧ j < k) ∧
      (k ≤ s.params.nchunk → s.ch.wf s.params = true → (scatter s off rem v k).ch.wf s.params = true) := by
  induction k generalizing s off rem v with
  | zero => exact ⟨⟨rfl, rfl, rfl, rfl, rfl, rfl⟩, fun _ _ => rfl, ⟨[], by simp [scatter], by simp⟩, fun _ h => h⟩
  | succ k ih =>
    rw [scatter]
    split
    · exact ⟨⟨rfl, rfl, rfl, rfl, rfl, rfl⟩, fun _ _ => rfl, ⟨[], by simp, by simp⟩, fun _ h => h⟩
    · dsimp only
      set t := (s.memRead k).2.memWrite k (insertField s.cap (s.memRead k).1 off (min (s.cap - off) rem)
        (v &&& lowMask (min (s.cap - off) rem))) with ht
      obtain ⟨h1, h2, ⟨as, h3, h4⟩, h5⟩ := ih t 0 (rem - min (s.cap - off) rem) (v >>> min (s.cap - off) rem)
      have hp : t.params = s.params := rfl
      refine ⟨?_, fun j hj => ?_, ?_, fun hk hw => ?_⟩
      · exact h1
      · rw [h2 j (by omega)]
        exact Memory.at_put_other _ (by omega) _
      · obtain ⟨w, hw⟩ : ∃ w, t.accesses = s.accesses ++ [.read k, .write k w] := ⟨_, by simp [ht]; rfl⟩
        refine ⟨.read k :: .write k w :: as, by rw [h3, hw]; simp, fun a ha => ?_⟩
        rcases List.mem_cons.1 ha with rfl | ha
        · exact .inl ⟨k, rfl, by omega⟩
        · rcases List.mem_cons.1 ha with rfl | ha
          · exact .inr ⟨k, w, rfl, by omega⟩
          · rcases h4 a ha with ⟨j, rfl, hj⟩ | ⟨j, w, rfl, hj⟩
            · exact .inl ⟨j, rfl, by omega⟩
            · exact .inr ⟨j, w, rfl, by omega⟩
      · rw [← hp]
        exact h5 (by rw [hp]; omega) (State.memWrite_wf (s := (s.memRead k).2) hw (by simpa using hk) _)

/-- The rendering loop reads chunks `j` to `j + left - 1` in that order, and answers their renderings joined. -/
theorem renderChunks_eq (s : State) (left j : Nat) :
    renderChunks s left j =
      ((List.range' j left).flatMap (fun k => render s.cap (s.chunk k)),
        { s with accesses := s.accesses ++ (List.range' j left).map .read }) := by
  induction left generalizing s j with
  | zero => simp [renderChunks]
  | succ left ih =>
    rw [renderChunks]
    simp only [State.memRead_fst, State.memRead_snd, ih, List.range'_succ, List.flatMap_cons, List.map_cons]
    simp only [State.note, List.append_assoc, List.singleton_append]
    rfl

/-- The writes that land after an abandoned command touch only the chunks the command would have written, leave there
either the old word or one it would have written, and keep the canonical form. -/
theorem landWrites_frame (s : State) (as : List Access) :
    (landWrites s as).accesses = s.accesses ∧ sameOutsideMemory s (landWrites s as) ∧
      (∀ j, (∀ v, .write j v ∉ as) → (landWrites s as).ch.at j = s.ch.at j) ∧
      (∀ j, (landWrites s as).chunk j = s.chunk j ∨
        ∃ v, .write j v ∈ as ∧ (landWrites s as).chunk j = truncBits s.cap v.toNat) ∧
      ((∀ j v, .write j v ∈ as → j < s.params.nchunk) → s.ch.wf s.params = true →
        (landWrites s as).ch.wf s.params = true) := by
  induction as generalizing s with
  | nil => exact ⟨rfl, ⟨rfl, rfl, rfl, rfl, rfl, rfl⟩, fun _ _ => rfl, fun _ => .inl rfl, fun _ h => h⟩
  | cons a as ih =>
    cases a with
    | read k =>
      obtain ⟨h1, h2, h3, h4, h5⟩ := ih s
      refine ⟨h1, h2, fun j hj => h3 j fun v hv => hj v (.tail _ hv), fun j => ?_, fun hj => h5 fun j v hv => hj j v (.tail _ hv)⟩
      exact (h4 j).imp_right fun ⟨v, hv, e⟩ => ⟨v, .tail _ hv, e⟩
    | write k w =>
      rw [landWrites]
      split
      · obtain ⟨h1, h2, h3, h4, h5⟩ := ih (s.storeChunk k w.toNat)
        refine ⟨h1, h2, fun j hj => ?_, fun j => ?_, fun hj hw => ?_⟩
        · rw [h3 j fun v hv => hj v (.tail _ hv)]
          exact Memory.at_put_other _ (fun e => hj w (by rw [e]; exact .head _)) _
        · rcases h4 j with e | ⟨v, hv, e⟩
          · by_cases hk : j = k
            · subst hk
              exact .inr ⟨w, .head _, e.trans (s.storeChunk_chunk_same j _)⟩
            · exact .inl (e.trans (s.storeChunk_chunk_other hk _))
          · exact .inr ⟨v, .tail _ hv, e⟩
        · exact h5 (fun j v hv => hj j v (.tail _ hv)) (State.storeChunk_wf hw (hj k w (.head _)) _)
      · obtain ⟨h1, h2, h3, h4, h5⟩ := ih s
        refine ⟨h1, h2, fun j hj => h3 j fun v hv => hj v (.tail _ hv), fun j => ?_, fun hj => h5 fun j v hv => hj j v (.tail _ hv)⟩
        exact (h4 j).imp_right fun ⟨v, hv, e⟩ => ⟨v, .tail _ hv, e⟩

/-- The bulk read answers `n` fields, field `k` by a division and a remainder. -/
theorem getFields_eq (b i w n : Nat) : getFields b i w n = (List.range n).map fun k => b / 2 ^ (i + k * w) % 2 ^ w := by
  simp [getFields, extractField_eq]

/-- The bulk insertion stays inside the word. -/
theorem putFields_lt {C b i w : Nat} {vs : List Nat} (hb : b < 2 ^ C) (h : i + vs.length * w ≤ C) :
    putFields C w b i vs < 2 ^ C := by
  induction vs generalizing b i with
  | nil => exact hb
  | cons v vs ih =>
    rw [List.length_cons, Nat.succ_mul] at h
    exact ih (insertField_lt v hb (by omega)) (by omega)

/-- The scan answers the first field that is the value, or that there is none. -/
theorem findField_spec (b w v cnt : Nat) :
    match findField b w v cnt with
    | some k => k < cnt ∧ extractField b (k * w) w = v ∧ ∀ l, l < k → extractField b (l * w) w ≠ v
    | none => ∀ k, k < cnt → extractField b (k * w) w ≠ v := by
  cases h : findField b w v cnt with
  | none => simpa [findField] using h
  | some k =>
    obtain ⟨h1, h2, h3⟩ := List.find?_range_eq_some.1 h
    exact ⟨List.mem_range.1 h2, by simpa using h1, fun l hl => by simpa using h3 l hl⟩

end Sys2Proof.Machine
end

