-- ==== Sys2Proof/Laws/PerInstr.lean ====
section
/-! SUPPORT. Facts about instructions as syntax, one lemma per constructor.
Family EncodeFields: the four fields read back from an instruction's control word are the fields it has. -/

namespace Sys2Proof.Laws

/-- The four fields do not overlap in the control word (30_encoding.md R61). -/
theorem packCtl_toNat {f : CtlFields} (ho : f.op < 2 ^ 4) (hw : f.width < 2 ^ 7) (hn : f.n < 2 ^ 7)
    (hi : f.indent < 2 ^ 14) :
    (packCtl f).toNat = f.op * 2 ^ 28 + f.width * 2 ^ 21 + f.n * 2 ^ 14 + f.indent := by
  have e1 : f.op <<< 28 ||| f.width <<< 21 = (f.op * 2 ^ 7 + f.width) <<< 21 := by
    rw [show f.op <<< 28 = (f.op <<< 7) <<< 21 by rw [← Nat.shiftLeft_add], ← Nat.shiftLeft_or_distrib,
      ← Nat.shiftLeft_add_eq_or_of_lt hw, Nat.shiftLeft_eq f.op]
  have e2 : (f.op * 2 ^ 7 + f.width) <<< 21 ||| f.n <<< 14 = ((f.op * 2 ^ 7 + f.width) * 2 ^ 7 + f.n) <<< 14 := by
    rw [show (f.op * 2 ^ 7 + f.width) <<< 21 = ((f.op * 2 ^ 7 + f.width) <<< 7) <<< 14 by rw [← Nat.shiftLeft_add],
      ← Nat.shiftLeft_or_distrib, ← Nat.shiftLeft_add_eq_or_of_lt hn, Nat.shiftLeft_eq _ 7]
  rw [packCtl, e1, e2, ← Nat.shiftLeft_add_eq_or_of_lt hi, Nat.shiftLeft_eq, BitVec.toNat_ofNat]
  omega

theorem ctlFields_packCtl {f : CtlFields} (ho : f.op < 2 ^ 4) (hw : f.width < 2 ^ 7) (hn : f.n < 2 ^ 7)
    (hi : f.indent < 2 ^ 14) : ctlFields (packCtl f) = f := by
  obtain ⟨op, width, n, indent⟩ := f
  simp only [ctlFields, ctlField, packCtl_toNat ho hw hn hi, CtlFields.mk.injEq] at *
  omega

namespace EncodeFields

/-- The fields of the control word of `i` are the fields of `i`. -/
def Statement (i : Instr) : Prop := i.WellFormed → ctlFields (encode i) = i.fields

theorem bsize : Statement .bsize := fun _ => by decide
theorem get (width indent : Nat) : Statement (.get width indent) := fun h => by
  simp only [Instr.WellFormed, Instr.wellFormed, Bool.and_eq_true, decide_eq_true_eq] at h
  exact ctlFields_packCtl (by simp [Instr.fields]) h.1 (by simp [Instr.fields]) h.2
theorem set (width indent : Nat) : Statement (.set width indent) := fun h => by
  simp only [Instr.WellFormed, Instr.wellFormed, Bool.and_eq_true, decide_eq_true_eq] at h
  exact ctlFields_packCtl (by simp [Instr.fields]) h.1 (by simp [Instr.fields]) h.2
theorem getb (width n indent : Nat) : Statement (.getb width n indent) := fun h => by
  simp only [Instr.WellFormed, Instr.wellFormed, Bool.and_eq_true, decide_eq_true_eq] at h
  exact ctlFields_packCtl (by simp [Instr.fields]) h.1.1 h.1.2 h.2
theorem setb (width n indent : Nat) : Statement (.setb width n indent) := fun h => by
  simp only [Instr.WellFormed, Instr.wellFormed, Bool.and_eq_true, decide_eq_true_eq] at h
  exact ctlFields_packCtl (by simp [Instr.fields]) h.1.1 h.1.2 h.2
theorem idx (width : Nat) : Statement (.idx width) := fun h => by
  simp only [Instr.WellFormed, Instr.wellFormed, decide_eq_true_eq] at h
  exact ctlFields_packCtl (by simp [Instr.fields]) h (by simp [Instr.fields]) (by simp [Instr.fields])
theorem str : Statement .str := fun _ => by decide
theorem cloc (n indent : Nat) : Statement (.cloc n indent) := fun h => by
  simp only [Instr.WellFormed, Instr.wellFormed, Bool.and_eq_true, decide_eq_true_eq] at h
  exact ctlFields_packCtl (by simp [Instr.fields]) (by simp [Instr.fields]) h.1 h.2
theorem cget (width n indent : Nat) : Statement (.cget width n indent) := fun h => by
  simp only [Instr.WellFormed, Instr.wellFormed, Bool.and_eq_true, decide_eq_true_eq] at h
  exact ctlFields_packCtl (by simp [Instr.fields]) h.1.1 h.1.2 h.2
theorem cset (width n indent : Nat) : Statement (.cset width n indent) := fun h => by
  simp only [Instr.WellFormed, Instr.wellFormed, Bool.and_eq_true, decide_eq_true_eq] at h
  exact ctlFields_packCtl (by simp [Instr.fields]) h.1.1 h.1.2 h.2
theorem cstr (n : Nat) : Statement (.cstr n) := fun h => by
  simp only [Instr.WellFormed, Instr.wellFormed, decide_eq_true_eq] at h
  exact ctlFields_packCtl (by simp [Instr.fields]) (by simp [Instr.fields]) h (by simp [Instr.fields])

end EncodeFields

end Sys2Proof.Laws
end

