-- ==== Sys2Proof/Tests/Slice0.lean ====
section
/-! SUPPORT. The model's own tests. Expected values come from 95_test_vectors.md (the vector is named) or from the rule
named; the witnesses show that the hypotheses of the obligations can be met. -/

namespace Sys2Proof.Tests

open Sys2Proof.Machine

/-- The machine of build `p` with the words `cells` in its chunk memory and the command `c` on its port. -/
def mach (p : Params) (cells : List (Nat × Word)) (c : Command) : State :=
  { State.resetWith p with ch := ⟨0, cells⟩, port := c }

/-- The memory of the vectors of 95_test_vectors.md 2.9: `CH = [0xAA, 0xCC, 0xF0]`. -/
def cells3 : List (Nat × Word) := [(0, 0xAA), (1, 0xCC), (2, 0xF0)]

/-- A command whose control word plays no part. -/
def operands (bits value : Word) (seq : List Word) (cvalue : Word) : Command := ⟨0#32, bits, value, seq, cvalue⟩

/-- The responses of a next state. -/
def responsesOf : Host.Outcome State Fault Refusal → Option (List Response)
  | .next t => some t.responses
  | .fault _ => none
  | .refused _ => none

/-- The accesses and the words of the chunk memory of a next state. -/
def memoryOf : Host.Outcome State Fault Refusal → Option (List Access × List (Nat × Word))
  | .next t => some (t.accesses, t.ch.cells)
  | .fault _ => none
  | .refused _ => none

abbrev std : Params := Params.standard

/-! ### WellFormed: a term each check refuses, and the largest it lets through -/

theorem test_wellFormed_refuses_width : (Instr.get 128 0).wellFormed = false := by decide
theorem test_wellFormed_refuses_count : (Instr.getb 1 128 0).wellFormed = false := by decide
theorem test_wellFormed_refuses_indent : (Instr.cget 1 1 16384).wellFormed = false := by decide
theorem test_wellFormed_accepts_largest : (Instr.setb 127 127 16383).wellFormed = true := by decide
theorem test_params_refuses_no_chunks : ¬ Params.WellFormed ⟨.c8, .c8, 0, true⟩ := by decide
theorem test_params_refuses_128_chunks : ¬ Params.WellFormed ⟨.c8, .c8, 128, true⟩ := by decide
theorem test_present_refuses_cset : (Instr.cset 1 1 0).present false = false := by decide

/-! ### Decoding: one word per row written out field by field (op, width, n, indent) from 30_encoding.md R61, R71 -/

theorem test_decode_bsize : decode true 0b0001_0000000_0000000_00000000000000#32 = .ok .bsize := by rfl
theorem test_decode_get : decode true 0b0010_0000011_0000000_00000000000101#32 = .ok (.get 3 5) := by rfl
theorem test_decode_set : decode true 0b0011_1111111_0000000_11111111111111#32 = .ok (.set 127 16383) := by rfl
theorem test_decode_getb : decode true 0b0100_1111111_1111111_11111111111111#32 = .ok (.getb 127 127 16383) := by rfl
theorem test_decode_setb : decode true 0b0101_0000001_0001000_00000000000000#32 = .ok (.setb 1 8 0) := by rfl
theorem test_decode_idx : decode true 0b0110_0000010_0000000_00000000000000#32 = .ok (.idx 2) := by rfl
theorem test_decode_str : decode true 0b0111_0000000_0000000_00000000000000#32 = .ok .str := by rfl
theorem test_decode_cloc : decode true 0b1000_0000000_0000011_00000000001000#32 = .ok (.cloc 3 8) := by rfl
theorem test_decode_cget : decode true 0b1001_0001100_0000011_00000000000110#32 = .ok (.cget 12 3 6) := by rfl
theorem test_decode_cset : decode true 0b1010_0001000_0000011_00000000000100#32 = .ok (.cset 8 3 4) := by rfl
theorem test_decode_cstr : decode true 0b1011_0000000_0000011_00000000000000#32 = .ok (.cstr 3) := by rfl

/-- V-DEC-2, 3, 4: reserved operation codes. -/
theorem test_decode_reserved :
    decode true 0x00000000#32 = .error (.reservedOp 0) ∧ decode true 0xC0000000#32 = .error (.reservedOp 12) ∧
      decode true 0xFFFFFFFF#32 = .error (.reservedOp 15) := ⟨rfl, rfl, rfl⟩

/-- V-DEC-5, 7, 8, 9, 10, 11, 12: a field that must be zero is not. -/
theorem test_decode_unused_fields :
    decode true 0x10000001#32 = .error (.unusedFieldNonzero 1) ∧ decode true 0x70200000#32 = .error (.unusedFieldNonzero 7) ∧
      decode true 0x80200000#32 = .error (.unusedFieldNonzero 8) ∧ decode true 0xB0000001#32 = .error (.unusedFieldNonzero 11) ∧
      decode true 0x20604005#32 = .error (.unusedFieldNonzero 2) ∧ decode true 0x60400001#32 = .error (.unusedFieldNonzero 6) ∧
      decode true 0x60404000#32 = .error (.unusedFieldNonzero 6) := ⟨rfl, rfl, rfl, rfl, rfl, rfl, rfl⟩

/-- V-DEC-13: operation code 10 in a build without `CSET`. -/
theorem test_decode_cset_absent : decode false 0xA100C004#32 = .error .csetAbsent := by rfl

theorem test_encode_cget : encode (.cget 12 3 6) = 0x9180C006#32 := by decide
theorem test_encode_set : encode (.set 12 53) = 0x31800035#32 := by decide
theorem test_decodeTableWord_get : decodeTableWord 32 0x20600005 = some (.get 3 5) := by decide

/-! ### Instructions -/

/-- V-BSIZE-12. -/
theorem test_bsize_top_bit :
    responsesOf (exec .bsize (mach ⟨.c64, .c64, 1, true⟩ [] (operands 0 0x8000000000000000 [] 0))) =
      some [.ok (.size 64)] := by decide
/-- V-BSIZE-1. -/
theorem test_bsize_zero : responsesOf (exec .bsize (mach std [] (operands 0 0 [] 0))) = some [.ok (.size 1)] := by decide

/-- V-GET-6: host integer -3. -/
theorem test_get_negative_indent :
    responsesOf (exec (.get 3 0x3FFD) (mach std [] (operands 0xA5 0 [] 0))) = some [.ok (.res 0x05)] := by decide
/-- V-GET-4. -/
theorem test_get_past_the_top :
    responsesOf (exec (.get 2 7) (mach std [] (operands 0xA5 0 [] 0))) = some [.error .rangeError] := by decide

/-- V-SET-13. -/
theorem test_set_inside_ones :
    responsesOf (exec (.set 6 5) (mach ⟨.c16, .c16, 1, true⟩ [] (operands 0xFFFF 0x2A [] 0))) =
      some [.ok (.res 0xFD5F)] := by decide
/-- V-SET-8. -/
theorem test_set_one_bit_too_wide :
    responsesOf (exec (.set 2 0) (mach std [] (operands 0 4 [] 0))) = some [.error .overflowError] := by decide

/-- V-GETB-14. -/
theorem test_getb_bytes :
    responsesOf (exec (.getb 8 3 8) (mach ⟨.c32, .c8, 1, true⟩ [] (operands 0xDEADBEEF 0 [] 0))) =
      some [.ok (.seqOut [0xBE, 0xAD, 0xDE])] := by decide
/-- V-GETB-4. -/
theorem test_getb_not_clamped :
    responsesOf (exec (.getb 3 3 2) (mach std [] (operands 0xB4 0 [] 0))) = some [.error .overflowError] := by decide

/-- V-SETB-11. -/
theorem test_setb_keeps_high_bits :
    responsesOf (exec (.setb 3 2 0) (mach std [] (operands 0xFF 0 [0, 0] 0))) = some [.ok (.res 0xC0)] := by decide
/-- V-SETB-4. -/
theorem test_setb_batch_fail :
    responsesOf (exec (.setb 2 3 0) (mach std [] (operands 0xFF 0 [1, 4, 1] 0))) = some [.error .overflowError] := by decide

/-- V-IDX-1. -/
theorem test_idx_found :
    responsesOf (exec (.idx 2) (mach std [] (operands 0xE4 2 [] 0))) = some [.ok (.search true 2)] := by decide
/-- V-IDX-9. -/
theorem test_idx_partial_field_not_compared :
    responsesOf (exec (.idx 3) (mach std [] (operands 0xC0 3 [] 0))) = some [.ok (.search false 0x7F)] := by decide

/-- V-STR-1. -/
theorem test_str :
    responsesOf (exec .str (mach std [] (operands 0x0A 0 [] 0))) =
      some [.ok (.str [.zero, .zero, .zero, .zero, .one, .zero, .one, .zero])] := by decide

/-- V-CLOC-6. -/
theorem test_cloc_top_bit : responsesOf (exec (.cloc 3 23) (mach std [] Command.idle)) = some [.ok (.chunk 0)] := by decide
/-- V-CLOC-10. -/
theorem test_cloc_too_many_chunks :
    responsesOf (exec (.cloc 5 0) (mach std [] Command.idle)) = some [.error .badOperand] := by decide

/-- V-CGET-3: the value and the reads. -/
theorem test_cget_two_boundaries :
    responsesOf (exec (.cget 12 3 6) (mach std cells3 Command.idle)) = some [.ok (.cres 0x0B33)] ∧
      memoryOf (exec (.cget 12 3 6) (mach std cells3 Command.idle)) =
        some ([.read 2, .read 1, .read 0], cells3) := by decide
/-- V-CGET-24: nine chunks, the accumulator truncated before the mask. -/
theorem test_cget_nine_chunks :
    responsesOf (exec (.cget 64 9 1) (mach ⟨.c8, .c64, 9, true⟩ [(0, 0x01), (1, 0x23), (2, 0x45), (3, 0x67), (4, 0x89),
      (5, 0xAB), (6, 0xCD), (7, 0xEF), (8, 0x5A)] Command.idle)) = some [.ok (.cres 0x91A2B3C4D5E6F7AD)] := by decide

/-- V-CSET-3: the words and the accesses. -/
theorem test_cset_two_boundaries :
    memoryOf (exec (.cset 12 3 6) (mach std cells3 (operands 0 0 [] 0))) =
      some ([.read 2, .write 2 0x30, .read 1, .write 1 0x00, .read 0, .write 0 0xA8],
        [(0, 0xA8), (1, 0x00), (2, 0x30)]) := by decide
/-- The note under 95_test_vectors.md 2.10: without `HAS_CSET`. -/
theorem test_cset_absent :
    responsesOf (exec (.cset 8 3 4) (mach ⟨.c8, .c16, 4, false⟩ cells3 (operands 0 0 [] 0x5A))) =
      some [.error .illegalOp] := by decide

/-- V-CSTR-4. -/
theorem test_cstr :
    responsesOf (exec (.cstr 2) (mach std cells3 Command.idle)) =
      some [.ok (.str [.one, .zero, .one, .zero, .one, .zero, .one, .zero,
        .one, .one, .zero, .zero, .one, .one, .zero, .zero])] := by decide
/-- V-CSTR-6. -/
theorem test_cstr_too_many_chunks :
    responsesOf (exec (.cstr 3) (mach ⟨.c8, .c8, 2, true⟩ cells3 Command.idle)) = some [.error .badOperand] := by decide

/-! ### Steps and host moves -/

/-- 60_exceptions.md R165, the line under 95_test_vectors.md 2.12: `GET` with `n = 1` and `width = 0`. -/
theorem test_step_illegal_before_bad_operand :
    responsesOf (step (State.reset.withFetchWord 32 0x20004000)) = some [.error .illegalOp] := by decide

/-- 70_reset_and_hazards.md R192: reading words never written is answered `OK`; their value is free. -/
theorem test_step_reads_unwritten_words :
    (responsesOf (step (State.reset.withFetchWord 32 0x9180C006))).map (·.map Response.status) = some [.ok] := by rfl

/-- 10_state.md R24: the host writes chunk 1, keeping the indices rising. -/
theorem test_step_host_write :
    memoryOf (step { mach std [(0, 0xAA), (2, 0xF0)] Command.idle with inbox := [.write 1 0xCC] }) =
      some ([], cells3) := by decide

/-- 20_memory.md R40. -/
theorem test_step_host_write_outside :
    (step { mach std [] Command.idle with inbox := [.write 4 0] } matches .fault (.noSuchChunk 4)) = true := by decide

/-- 70_reset_and_hazards.md R191: an abandoned command other than `CSET`. -/
theorem test_step_abandoned_cget :
    responsesOf (step { mach std cells3 Command.idle with inbox := [.commandThenReset ⟨0x9180C006#32, 0, 0, [], 0⟩] }) =
        some [] ∧
      memoryOf (step { mach std cells3 Command.idle with inbox := [.commandThenReset ⟨0x9180C006#32, 0, 0, [], 0⟩] }) =
        some ([], cells3) := by decide

/-! ### The assembler -/

/-- E2: 30_encoding.md R75, the example of `SETB`. -/
theorem test_assemble_setb :
    (parseWritten "SETB bits=0, indent=0, width=1, seq=[1,0,0,0,1,0,0,0]".toList).bind (assemble std) =
      some ⟨0x50220000#32, 0, 0, [1, 0, 0, 0, 1, 0, 0, 0], 0⟩ := by decide
/-- 30_encoding.md R76, R77: aliases, and a host's -3. -/
theorem test_assemble_alias :
    (parseWritten "get_scalar offset=3, bits=0b11100001, index=0x3FFD".toList).bind (assemble std) =
      some ⟨0x20603FFD#32, 0xE1, 0, [], 0⟩ ∧ hostIndent (-3) = 0x3FFD := by decide

/-! ### Witnesses: the hypotheses of the obligations can be met, at boundary values -/

theorem witness_DecodeOfEncode :
    (Instr.cset 127 127 16383).WellFormed ∧ (Instr.cset 127 127 16383).present true = true ∧
      Instr.str.WellFormed ∧ Instr.str.present false = true := by decide

theorem witness_EncodeOfDecode : decode false 0x4FFFFFFF#32 = .ok (.getb 127 127 16383) := by rfl

theorem witness_ControlWordIsItsFourFields :
    (15 : Nat) < 2 ^ 4 ∧ (127 : Nat) < 2 ^ 7 ∧ (127 : Nat) < 2 ^ 7 ∧ (16383 : Nat) < 2 ^ 14 := by decide

/-- A machine whose next host move is `m`. -/
def facing (m : HostMove) : State := { mach std cells3 Command.idle with inbox := [m] }

theorem witness_IllegalWordsAnsweredIllegalOp :
    (facing (.command ⟨0xF0000000#32, 1, 2, [3], 4⟩)).inbox = [.command ⟨0xF0000000#32, 1, 2, [3], 4⟩] ∧
      decode std.hasCset 0xF0000000#32 = .error (.reservedOp 15) := ⟨rfl, rfl⟩

theorem witness_HostIntegerIndentLosesNothing : (0 : Int) ≤ 16383 ∧ (16383 : Int) < 2 ^ 14 := by decide

theorem witness_AssembledCommandsArePresentable :
    (5 : Nat) < 2 ^ 4 ∧ assemble std ⟨5, [.number .width 8, .seq [255]]⟩ = some ⟨0x51004000#32, 0, 0, [255], 0⟩ := by decide

theorem witness_StepRunsTheDecodedInstruction :
    (facing (.command ⟨0x20600005#32, 0xE1, 0, [], 0⟩)).inbox = [.command ⟨0x20600005#32, 0xE1, 0, [], 0⟩] ∧
      decode std.hasCset 0x20600005#32 = .ok (.get 3 5) := ⟨rfl, rfl⟩

theorem witness_PlacedWordIsRunNext :
    (Instr.cset 8 3 4).WellFormed ∧ (Instr.cset 8 3 4).present State.reset.params.hasCset = true := by decide

theorem witness_IdleStepChangesNothing : State.reset.inbox = [] := rfl

theorem witness_ChunkMemoryWrittenByHostAndCsetOnly :
    ((facing (.write 3 0x155)).inbox = [.write 3 0x155] ∧ 3 < std.nchunk) ∧
      (∃ t, runCommand ⟨0x20600005#32, 0xE1, 0, [], 0⟩ State.reset = .next t) ∧
      (∀ width n indent, decode std.hasCset 0x20600005#32 ≠ .ok (.cset width n indent)) ∧
      (∀ width n indent, decode std.hasCset 0x20600005#32 ≠ .ok (.cget width n indent)) ∧
      (∀ n, decode std.hasCset 0x20600005#32 ≠ .ok (.cstr n)) := by
  have h : decode std.hasCset 0x20600005#32 = .ok (.get 3 5) := rfl
  exact ⟨⟨rfl, by decide⟩, ⟨_, rfl⟩, by simp [h], by simp [h], by simp [h]⟩

theorem witness_HostWriteOutsideTheMemoryFaults :
    (facing (.write 4 0)).inbox = [.write 4 0] ∧ std.nchunk ≤ 4 := ⟨rfl, by decide⟩

theorem witness_ResetBetweenCommandsChangesNothing : (facing .reset).inbox = [.reset] := rfl

/-- A `CSET` over two chunks, and, for the clause about other commands, a `CGET`. -/
theorem witness_AbandonedCommandLeavesEachChunkOldOrNew :
    (facing (.commandThenReset ⟨0xA100C004#32, 0, 0, [], 0x5A⟩)).inbox =
        [.commandThenReset ⟨0xA100C004#32, 0, 0, [], 0x5A⟩] ∧
      decode std.hasCset 0xA100C004#32 = .ok (.cset 8 3 4) ∧ (3 - 1 - 4 / 8 < 3 ∧ 0 < 3 - 1 - (4 + 8 - 1) / 8) ∧
      ∀ width n indent, decode std.hasCset 0x9180C006#32 ≠ .ok (.cset width n indent) := by
  have h : decode std.hasCset 0x9180C006#32 = .ok (.cget 12 3 6) := rfl
  exact ⟨rfl, rfl, by decide, by simp [h]⟩

theorem witness_ErrorHasNoEffect :
    ∃ t, runCommand ⟨0xA0000000#32, 0, 0, [], 0⟩ State.reset = .next t ∧
      t.responses = State.reset.responses ++ [.error .badOperand] ∧ (Response.error .badOperand).status ≠ .ok :=
  ⟨_, rfl, rfl, by decide⟩

theorem witness_StatusIsAFunctionOfCommandAndBuild :
    (mach std cells3 Command.idle).params = State.reset.params ∧ mach std cells3 Command.idle ≠ State.reset :=
  ⟨rfl, fun h => absurd (congrArg (fun s => s.ch.cells.length) h) (by decide)⟩

/-- Two machines that differ in `CH[3]` and agree on the array of the command, `CH[0..2]`. -/
theorem witness_CommandsDoNotInterfere :
    decode std.hasCset 0xB000C000#32 = .ok (.cstr 3) ∧
      ∀ j, j < 3 → (mach std (cells3 ++ [(3, 0x55)]) Command.idle).chunk j = (mach std (cells3 ++ [(3, 0)]) Command.idle).chunk j :=
  ⟨rfl, by decide⟩

theorem witness_ChunksOutsideTheArrayNeitherReadNorWritten :
    (decode std.hasCset 0xA100C004#32 = .ok (.cset 8 3 4) ∧ (Instr.cset 8 3 4).arrayLength ≤ 3 ∧
      ∃ t, runCommand ⟨0xA100C004#32, 0, 0, [], 0x5A⟩ (mach std cells3 Command.idle) = .next t) ∧
      decode std.hasCset 0xB0014000#32 = .ok (.cstr 5) ∧ std.nchunk < (Instr.cstr 5).arrayLength :=
  ⟨⟨rfl, by decide, _, rfl⟩, rfl, by decide⟩

theorem witness_StepKeepsTheInvariant :
    (facing (.command ⟨0xA100C004#32, 0, 0, [], 0x5A⟩)).Inv ∧
      ∃ t, step (facing (.command ⟨0xA100C004#32, 0, 0, [], 0x5A⟩)) = .next t :=
  ⟨by decide, _, rfl⟩

theorem witness_ResetMeetsTheInvariant : Params.WellFormed ⟨.c64, .c8, 127, false⟩ := by decide

/-- Every kind of move, each possible. -/
def busy : State :=
  { mach std cells3 Command.idle with
    inbox := [.command ⟨0x50220000#32, 0, 0, [1, 0, 0, 0, 1, 0, 0, 0], 0⟩, .write 3 0xFF, .reset,
      .commandThenReset ⟨0xA100C004#32, 0, 0, [], 0xFFFF⟩] }

theorem witness_PossibleMovesNeverStop : busy.HostPossible := by decide
theorem witness_WholeProgramIsAnswered : busy.HostPossible ∧ busy.inbox.countP HostMove.answered = 1 := by decide
theorem test_possible_refuses_short_seq :
    HostMove.possible std (.command ⟨0x50220000#32, 0, 0, [1], 0⟩) = false := by decide

theorem witness_ChunkLoopsAreBounded :
    (∃ t, exec (.cget 16 4 7) (mach std cells3 Command.idle) = .next t) ∧
      (∃ t, exec (.cset 16 4 7) (mach std cells3 Command.idle) = .next t) ∧
      (∃ t, exec (.cstr 4) (mach std cells3 Command.idle) = .next t) ∧ 4 ≤ std.nchunk :=
  ⟨⟨_, rfl⟩, ⟨_, rfl⟩, ⟨_, rfl⟩, by decide⟩

/-- One instruction for each cause of `BAD_OPERAND`. -/
theorem witness_BadOperandComesBeforeTheSourcesErrors :
    decode std.hasCset 0x20004000#32 = .error (.unusedFieldNonzero 2) ∧
      (Instr.cset 0 5 0).present std.hasCset = true ∧ std.nchunk < 5 ∧ (Instr.get 0 7).present std.hasCset = true :=
  ⟨rfl, by decide, by decide, by decide⟩

theorem witness_BitSizeIsTheMinimalWidth : (0 : Nat) < 1 ∧ (1 : Nat) ≤ 1 ∧ (255 : Nat) < 2 ^ 8 := by decide
theorem witness_InsertReplacesExactlyTheField : (255 : Nat) < 2 ^ 8 ∧ 7 + 1 ≤ 8 := by decide
theorem witness_ChunkForBitCountsFromTheLastElement : 23 < 3 * std.capacity.bits := by decide

/-- `CAPACITY` = 8: `value` 0, and the largest. -/
theorem witness_BsizeAnswersTheMinimalWidth :
    (mach std [] (operands 0 0 [] 0)).valueOperand = 0 ∧ 0 < (mach std [] (operands 0 0xFF [] 0)).valueOperand := by decide

theorem witness_GetAnswersTheField :
    std.capacity.bits < 7 % std.capacity.bits + 2 ∧ 0 < 1 ∧ 7 % std.capacity.bits + 1 ≤ std.capacity.bits ∧
      8 % std.capacity.bits + 8 ≤ std.capacity.bits := by decide

theorem witness_SetAnswersTheWordWithTheFieldReplaced :
    2 ^ 2 ≤ (mach std [] (operands 0 4 [] 0)).valueOperand ∧ std.capacity.bits < 7 % std.capacity.bits + 2 ∧
      (mach std [] (operands 0 3 [] 0)).valueOperand < 2 ^ 2 ∧ 6 % std.capacity.bits + 2 ≤ std.capacity.bits := by decide

/-- A state holding the answer of the first `SET`, and the full-width field. -/
theorem witness_GetAfterSetAndSetTwice :
    0 < 2 ∧ (mach std [] (operands 0 3 [] 0)).valueOperand < 2 ^ 2 ∧ 14 % std.capacity.bits + 2 ≤ std.capacity.bits ∧
      (mach std [] (operands 0xC0 3 [] 0)).params = std ∧ (mach std [] (operands 0xC0 3 [] 0)).port.bits = 0xC0 ∧
      responsesOf (exec (.set 2 14) (mach std [] (operands 0 3 [] 0))) = some [.ok (.res 0xC0)] ∧
      (mach std [] (operands 0 0xFF [] 0)).valueOperand < 2 ^ 8 ∧ 8 = std.capacity.bits := by decide

theorem witness_ChainedSetsKeepEarlierFields :
    0 < 2 ∧ 0 < 6 ∧ (mach std [] (operands 0 3 [] 0)).valueOperand < 2 ^ 2 ∧
      (mach std [] (operands 0xC0 63 [] 0)).valueOperand < 2 ^ 6 ∧ 6 % std.capacity.bits + 2 ≤ std.capacity.bits ∧
      0 % std.capacity.bits + 6 ≤ std.capacity.bits ∧ 0 % std.capacity.bits + 6 ≤ 6 % std.capacity.bits ∧
      responsesOf (exec (.set 2 6) (mach std [] (operands 0 3 [] 0))) = some [.ok (.res 0xC0)] := by decide

theorem witness_WordIndentWrapsModuloCapacity : 13 % std.capacity.bits = 5 % std.capacity.bits := by decide

theorem witness_GetbAnswersEveryField :
    std.capacity.bits < 2 % std.capacity.bits + 3 * 3 ∧ 0 < 3 ∧ 2 % std.capacity.bits + 2 * 3 ≤ std.capacity.bits ∧
      1 < 2 ∧ 0 % std.capacity.bits + 0 * 127 ≤ std.capacity.bits := by decide

theorem witness_SetbAnswersTheWordWithTheFieldsReplaced :
    std.capacity.bits < 7 % std.capacity.bits + 2 * 1 ∧
      (1 < 3 ∧ 2 ^ 2 ≤ (mach std [] (operands 0xFF 0 [1, 4, 1] 0)).seqLane 1) ∧
      (0 < 3 ∧ 2 % std.capacity.bits + 2 * 3 ≤ std.capacity.bits ∧
        ∀ k, k < 2 → (mach std [] (operands 0xFF 0 [0, 7] 0)).seqLane k < 2 ^ 3) := by decide

theorem witness_BulkRoundTrips :
    (0 < 3 ∧ 2 % std.capacity.bits + 2 * 3 ≤ std.capacity.bits ∧
      (∀ k, k < 2 → (mach std [] (operands 0xFF 0 [0, 7] 0)).seqLane k < 2 ^ 3) ∧
      responsesOf (exec (.setb 3 2 2) (mach std [] (operands 0xFF 0 [0, 7] 0))) = some [.ok (.res 0xE3)] ∧
      (mach std [] (operands 0xE3 0 [0, 7] 0)).port.bits = 0xE3) ∧
      responsesOf (exec (.getb 3 2 2) (mach std [] (operands 0xE3 0 [0, 7] 0))) = some [.ok (.seqOut [0, 7])] ∧
      (mach std [] (operands 0 9 [9] 0)).port.seq = [(mach std [] (operands 0 9 [9] 0)).port.value] := by decide

/-- Both outcomes of a scan, and a value too wide. -/
theorem witness_IdxAnswersTheFirstMatch :
    2 ^ 2 ≤ (mach std [] (operands 0xE4 5 [] 0)).valueOperand ∧ 0 < 2 ∧
      (mach std [] (operands 0xE4 3 [] 0)).valueOperand < 2 ^ 2 ∧
      responsesOf (exec (.idx 2) (mach std [] (operands 0xE4 3 [] 0))) = some [.ok (.search true 3)] ∧
      responsesOf (exec (.idx 2) (mach std [] (operands 0x24 3 [] 0))) = some [.ok (.search false 0x7F)] := by decide

theorem witness_StrRendersTheWord : 7 < (mach std [] (operands 0x80 0 [] 0)).cap := by decide

theorem witness_ClocAnswersTheChunkIndex :
    std.nchunk < 5 ∧ 4 ≤ std.nchunk ∧ 4 * std.capacity.bits ≤ 32 ∧ 4 < 2 ^ 7 ∧ 31 < 4 * std.capacity.bits := by decide

theorem witness_CgetAnswersTheChunkedField :
    std.nchunk < 5 ∧ 3 ≤ std.nchunk ∧ 3 * std.capacity.bits < 20 + 5 ∧ std.rcap.bits < 17 ∧
      (0 < 4 ∧ 20 + 4 ≤ 3 * std.capacity.bits ∧ 4 ≤ std.rcap.bits ∧ 3 < 4) := by decide

theorem witness_CgetIsExtractOfTheVector :
    ∃ t, exec (.cget 12 3 6) (mach std cells3 Command.idle) = .next t ∧ t.responses = [] ++ [.ok (.cres 0x0B33)] :=
  ⟨_, rfl, by decide⟩

theorem witness_CsetReplacesTheChunkedField :
    std.hasCset = true ∧ std.nchunk < 5 ∧ 3 ≤ std.nchunk ∧
      2 ^ 8 ≤ (mach std cells3 (operands 0 0 [] 0x100)).cvalueOperand ∧ 3 * std.capacity.bits < 20 + 5 ∧
      std.rcap.bits < 17 ∧
      (0 < 8 ∧ (mach std cells3 (operands 0 0 [] 0xFF)).cvalueOperand < 2 ^ 8 ∧ 16 + 8 ≤ 3 * std.capacity.bits ∧
        8 ≤ std.rcap.bits) ∧
      (3 - 1 - 16 / std.capacity.bits < 1 ∧ 0 < 3 - 1 - (8 + 8 - 1) / std.capacity.bits) ∧ 2 < 3 ∧ 7 < std.capacity.bits ∧
      (Params.mk .c8 .c8 1 false).hasCset = false := by decide

theorem witness_CsetIsInsertIntoTheVector :
    ∃ t, exec (.cset 8 3 4) (mach std cells3 (operands 0 0 [] 0x5A)) = .next t ∧ t.responses = [] ++ [.ok .done] :=
  ⟨_, rfl, rfl⟩

theorem witness_CgetAfterCset :
    ∃ t, exec (.cset 16 4 16) (mach std cells3 (operands 0 0 [] 0xBEEF)) = .next t ∧ t.responses = [] ++ [.ok .done] :=
  ⟨_, rfl, rfl⟩

theorem witness_CstrRendersTheArray : std.nchunk < 5 ∧ 4 ≤ std.nchunk ∧ 3 < 4 ∧ 7 < std.capacity.bits := by decide

theorem witness_RenderingsReadAsNumerals :
    (∃ t cs, exec .str (mach std [] (operands 0x0A 0 [] 0)) = .next t ∧ t.responses = [] ++ [.ok (.str cs)]) ∧
      ∃ t cs, exec (.cstr 4) (mach std cells3 Command.idle) = .next t ∧ t.responses = [] ++ [.ok (.str cs)] :=
  ⟨⟨_, _, rfl, rfl⟩, _, _, rfl, rfl⟩

theorem witness_GlobalBitsAndTheirRendering :
    31 < 4 * std.capacity.bits ∧ ∃ t cs, exec (.cstr 4) (mach std cells3 Command.idle) = .next t ∧
      t.responses = [] ++ [.ok (.str cs)] :=
  ⟨by decide, _, _, rfl, rfl⟩

end Sys2Proof.Tests
end

/-! Where the operations touch the chunk memory (20_memory.md R41, R46): the inversion of each operation that can access
it, and that the others only answer. -/

namespace Sys2Proof

/-- The operations with a loop over the chunk memory (20_memory.md R40, R46). -/
def Instr.accessesMemory : Instr → Bool
  | .cget _ _ _ | .cset _ _ _ | .cstr _ => true
  | .bsize | .get _ _ | .set _ _ | .getb _ _ _ | .setb _ _ _ | .idx _ | .str | .cloc _ _ => false

end Sys2Proof

namespace Sys2Proof.Machine

/-- Getting from `s` to `t` accessed only chunks below `k` and left every other chunk as it was. -/
def TouchesBelow (k : Nat) (s t : State) : Prop :=
  (∃ as, t.accesses = s.accesses ++ as ∧ ∀ a ∈ as, a.chunkIndex < k) ∧ ∀ j, k ≤ j → t.ch.at j = s.ch.at j

/-- The response is no memory access. -/
theorem TouchesBelow.answer {k : Nat} {s t : State} (h : TouchesBelow k s t) (r : Response) :
    TouchesBelow k s (t.answer r) := h

theorem TouchesBelow.mono {k n : Nat} {s t : State} (h : TouchesBelow k s t) (hk : k ≤ n) : TouchesBelow n s t := by
  obtain ⟨⟨as, has, hlt⟩, hch⟩ := h
  exact ⟨⟨as, has, fun a ha => (hlt a ha).trans_le hk⟩, fun j hj => hch j (hk.trans hj)⟩

theorem touchesBelow_of_readsBelow {k : Nat} {s t : State} (h : readsBelow k s t) : TouchesBelow k s t := by
  obtain ⟨js, hjs, rfl⟩ := h
  refine ⟨⟨js.map .read, rfl, fun a ha => ?_⟩, fun _ _ => rfl⟩
  obtain ⟨j, hj, rfl⟩ := List.mem_map.1 ha
  exact hjs j hj

theorem scatter_touchesBelow (s : State) (off rem v k : Nat) : TouchesBelow k s (scatter s off rem v k) := by
  obtain ⟨-, hch, ⟨as, has, hlt⟩, -⟩ := scatter_frame s off rem v k
  refine ⟨⟨as, has, fun a ha => ?_⟩, hch⟩
  rcases hlt a ha with ⟨j, rfl, hj⟩ | ⟨j, w, rfl, hj⟩
  · exact hj
  · exact hj

/-- A read of chunk `j` followed by reads below `j`. -/
theorem readsBelow_of_memRead {j k : Nat} {s t : State} (hj : j < k) (h : readsBelow j (s.memRead j).2 t) :
    readsBelow k s t := by
  obtain ⟨js, hjs, rfl⟩ := h
  refine ⟨j :: js, fun l hl => ?_, by simp [State.note]⟩
  rcases List.mem_cons.1 hl with rfl | hl
  · exact hj
  · exact (hjs l hl).trans hj

theorem renderChunks_readsBelow (s : State) (n : Nat) : readsBelow n s (renderChunks s n 0).2 := by
  rw [renderChunks_eq]
  exact ⟨List.range' 0 n, fun j hj => by simpa using hj, rfl⟩

/-- A nonempty field inside the array starts in one of the array's chunks (44_chunked.md R140). -/
theorem chunkForBit_lt {C n g w : Nat} (hw : w ≠ 0) (h : g + w ≤ n * C) : chunkForBit C n g < n := by
  have hn : n ≠ 0 := by
    rintro rfl
    omega
  exact (Nat.sub_le _ _).trans_lt (Nat.sub_one_lt hn)

theorem State.eq_of_raise_eq_next {s t : State} {k : ErrorKind} (h : s.raise k = .next t) : t = s.answer (.error k) :=
  ((Outcome.next_inj _ _).1 h).symm

theorem State.eq_of_ret_eq_next {s t : State} {p : Payload} (h : s.ret p = .next t) : t = s.answer (.ok p) :=
  ((Outcome.next_inj _ _).1 h).symm

/-- `CGET` fails, or its field lies in an array that exists and it answers after reads of that array. -/
theorem execCget_cases {width n indent : Nat} {s t : State} (h : execCget width n indent s = .next t) :
    (∃ k, t = s.answer (.error k)) ∨
      n ≤ s.params.nchunk ∧ ∃ u v, readsBelow n s u ∧ t = u.answer (.ok (.cres v)) := by
  unfold execCget at h
  split at h
  · exact .inl ⟨_, State.eq_of_raise_eq_next h⟩
  · next harray =>
    split at h
    · exact .inl ⟨_, State.eq_of_raise_eq_next h⟩
    · next hspan =>
      obtain ⟨hwidth, hn⟩ := not_or.1 harray
      have hj : chunkForBit s.cap n indent < n := chunkForBit_lt hwidth (Nat.not_lt.1 (not_or.1 hspan).1)
      exact .inr ⟨Nat.not_lt.1 hn, _, _, readsBelow_of_memRead hj (gather_readsBelow _ _ _ _ _ _),
        State.eq_of_ret_eq_next h⟩

/-- `CSET` fails, or its field lies in an array that exists and it answers after the scattering loop, which starts at a
chunk of that array. -/
theorem execCset_cases {width n indent : Nat} {s t : State} (h : execCset width n indent s = .next t) :
    (∃ k, t = s.answer (.error k)) ∨
      n ≤ s.params.nchunk ∧ chunkForBit s.cap n indent < n ∧
        t = (scatter s (indent % s.cap) width s.cvalueOperand (chunkForBit s.cap n indent + 1)).answer (.ok .done) := by
  unfold execCset at h
  split at h
  · exact .inl ⟨_, State.eq_of_raise_eq_next h⟩
  · split at h
    · exact .inl ⟨_, State.eq_of_raise_eq_next h⟩
    · next harray =>
      split at h
      · exact .inl ⟨_, State.eq_of_raise_eq_next h⟩
      · next herr =>
        obtain ⟨hwidth, hn⟩ := not_or.1 harray
        obtain ⟨-, hspan, -⟩ : _ ∧ ¬ s.spanPastArray n indent width ∧ _ := by simpa only [not_or] using herr
        exact .inr ⟨Nat.not_lt.1 hn, chunkForBit_lt hwidth (Nat.not_lt.1 hspan),
          State.eq_of_ret_eq_next h⟩

/-- `CSTR` fails, or its array exists and it answers after reads of that array. -/
theorem execCstr_cases {n : Nat} {s t : State} (h : execCstr n s = .next t) :
    (∃ k, t = s.answer (.error k)) ∨
      n ≤ s.params.nchunk ∧ ∃ u cs, readsBelow n s u ∧ t = u.answer (.ok (.str cs)) := by
  unfold execCstr at h
  split at h
  · exact .inl ⟨_, State.eq_of_raise_eq_next h⟩
  · next hn =>
    exact .inr ⟨Nat.not_lt.1 hn, _, _, renderChunks_readsBelow s n, State.eq_of_ret_eq_next h⟩

/-- An operation without a loop over the chunk memory does nothing but answer. -/
theorem exec_answers_of_not_accessesMemory {i : Instr} (hi : i.accessesMemory = false) (s : State) :
    ∃ r, exec i s = .next (s.answer r) := by
  cases i with
  | bsize | str => exact ⟨_, rfl⟩
  | get width indent =>
    simp only [exec, execGet]
    split_ifs <;> exact ⟨_, rfl⟩
  | set width indent =>
    simp only [exec, execSet]
    split_ifs <;> exact ⟨_, rfl⟩
  | getb width n indent =>
    simp only [exec, execGetb]
    split_ifs <;> exact ⟨_, rfl⟩
  | setb width n indent =>
    simp only [exec, execSetb]
    split_ifs <;> exact ⟨_, rfl⟩
  | idx width =>
    simp only [exec, execIdx]
    split_ifs <;> exact ⟨_, rfl⟩
  | cloc n indent =>
    simp only [exec, execCloc]
    split_ifs <;> exact ⟨_, rfl⟩
  | cget | cset | cstr => cases hi

/-- Every instruction either only answers, or its array exists and it touches only chunks of that array. -/
theorem exec_answers_or_touches_array {i : Instr} {s t : State} (h : exec i s = .next t) :
    (∃ r, t = s.answer r) ∨ i.arrayLength ≤ s.params.nchunk ∧ TouchesBelow i.arrayLength s t := by
  cases hi : i.accessesMemory with
  | false =>
    obtain ⟨r, hr⟩ := exec_answers_of_not_accessesMemory hi s
    exact .inl ⟨r, (Outcome.next_inj _ _).1 (h.symm.trans hr)⟩
  | true =>
    cases i with
    | cget width n indent =>
      obtain ⟨k, rfl⟩ | ⟨hn, u, v, hu, rfl⟩ := execCget_cases h
      · exact .inl ⟨_, rfl⟩
      · exact .inr ⟨hn, (touchesBelow_of_readsBelow hu).answer _⟩
    | cset width n indent =>
      obtain ⟨k, rfl⟩ | ⟨hn, hj, rfl⟩ := execCset_cases h
      · exact .inl ⟨_, rfl⟩
      · exact .inr ⟨hn, ((scatter_touchesBelow _ _ _ _ _).mono hj).answer _⟩
    | cstr n =>
      obtain ⟨k, rfl⟩ | ⟨hn, u, cs, hu, rfl⟩ := execCstr_cases h
      · exact .inl ⟨_, rfl⟩
      · exact .inr ⟨hn, (touchesBelow_of_readsBelow hu).answer _⟩
    | bsize | get | set | getb | setb | idx | str | cloc => cases hi

theorem runCommand_eq_exec {c : Command} {s : State} {i : Instr} (h : decode s.params.hasCset c.ctl = .ok i) :
    runCommand c s = exec i (s.accept c) := by
  simp only [runCommand, h]

/-- Settles O20: a command either only answers, or it touches only chunks of an array that exists; the access list is
empty as the command begins. -/
theorem chunksOutsideTheArrayNeitherReadNorWritten : Obligations.ChunksOutsideTheArrayNeitherReadNorWritten := by
  unfold Obligations.ChunksOutsideTheArrayNeitherReadNorWritten
  intro c s t i hdec hrun
  rw [runCommand_eq_exec hdec] at hrun
  obtain ⟨r, rfl⟩ | ⟨hn, ⟨as, has, hlt⟩, hch⟩ := exec_answers_or_touches_array hrun
  · simp
  · have hacc : t.accesses = as := by simpa using has
    refine ⟨fun a ha => ?_, hch, fun hgt => absurd hgt (Nat.not_lt.2 hn)⟩
    have ha : a.chunkIndex < i.arrayLength := hlt a (hacc ▸ ha)
    exact ⟨ha, ha.trans_le hn⟩

end Sys2Proof.Machine

/-! The control word and its four fields (30_encoding.md R61), the rows that match and mask select (R71), and the words
that are no command (R72). -/

namespace Sys2Proof

/-- Each field of a control word is inside the width 30_encoding.md R61 gives it. -/
theorem ctlFields_lt (w : BitVec 32) : (ctlFields w).op < 2 ^ 4 ∧ (ctlFields w).width < 2 ^ 7 ∧
    (ctlFields w).n < 2 ^ 7 ∧ (ctlFields w).indent < 2 ^ 14 :=
  have lt (a k : Nat) : a % 2 ^ k < 2 ^ k := Nat.mod_lt _ (Nat.two_pow_pos k)
  ⟨lt _ 4, lt _ 7, lt _ 7, lt _ 14⟩

/-- The four fields cover the control word. -/
theorem packCtl_ctlFields (w : BitVec 32) : packCtl (ctlFields w) = w := by
  obtain ⟨hop, hwidth, hn, hindent⟩ := ctlFields_lt w
  apply BitVec.eq_of_toNat_eq
  rw [Laws.packCtl_toNat hop hwidth hn hindent]
  simp only [ctlFields, ctlField]
  omega

/-- With every field inside its width, packing them cuts nothing off. -/
theorem packCtl_toNat_eq_or {f : CtlFields} (hop : f.op < 2 ^ 4) (hwidth : f.width < 2 ^ 7) (hn : f.n < 2 ^ 7)
    (hindent : f.indent < 2 ^ 14) :
    (packCtl f).toNat = f.op <<< 28 ||| f.width <<< 21 ||| f.n <<< 14 ||| f.indent := by
  have hlt : f.op <<< 28 ||| f.width <<< 21 ||| f.n <<< 14 ||| f.indent < 2 ^ 32 := by
    simp only [Nat.shiftLeft_eq]
    refine Nat.or_lt_two_pow (Nat.or_lt_two_pow (Nat.or_lt_two_pow ?_ ?_) ?_) ?_ <;> omega
  rw [packCtl, BitVec.toNat_ofNat, Nat.mod_eq_of_lt hlt]

/-- Settles O3: the fields divide the word without overlap and without remainder. -/
theorem controlWordIsItsFourFields : Obligations.ControlWordIsItsFourFields := by
  unfold Obligations.ControlWordIsItsFourFields
  constructor
  · intro w
    obtain ⟨hop, hwidth, hn, hindent⟩ := ctlFields_lt w
    refine ⟨packCtl_ctlFields w, hop, hwidth, hn, hindent, ?_⟩
    rw [← packCtl_toNat_eq_or hop hwidth hn hindent, packCtl_ctlFields]
  · intro op width n indent hop hwidth hn hindent
    exact Laws.ctlFields_packCtl hop hwidth hn hindent

theorem ctlFields_inj {w v : BitVec 32} : ctlFields w = ctlFields v ↔ w = v :=
  (Function.LeftInverse.injective packCtl_ctlFields).eq_iff

theorem CtlFields.eq_mk_iff {f : CtlFields} {op width n indent : Nat} :
    f = ⟨op, width, n, indent⟩ ↔ f.op = op ∧ f.width = width ∧ f.n = n ∧ f.indent = indent := by
  cases f
  rw [CtlFields.mk.injEq]

/-- A mask acts on each field by itself. -/
theorem ctlFields_and (w m : BitVec 32) : ctlFields (w &&& m) =
    ⟨(ctlFields w).op &&& (ctlFields m).op, (ctlFields w).width &&& (ctlFields m).width,
      (ctlFields w).n &&& (ctlFields m).n, (ctlFields w).indent &&& (ctlFields m).indent⟩ := by
  simp only [ctlFields, ctlField, BitVec.toNat_and, Nat.and_div_two_pow, Nat.and_mod_two_pow]

/-- The decoder answers an instruction exactly when the build has it and the fields are the instruction's own, those it
does not use being 0 (30_encoding.md R71). -/
theorem decodeFields_eq_ok_iff {hasCset : Bool} {f : CtlFields} {i : Instr} :
    decodeFields hasCset f = .ok i ↔ i.present hasCset = true ∧ f = i.fields := by
  constructor
  · fun_cases decodeFields hasCset f <;> intro h <;> cases h
    all_goals simp_all [Instr.present, Instr.fields, CtlFields.eq_mk_iff]
  · rintro ⟨hpresent, rfl⟩
    cases i with
    | cset width n indent => exact if_pos hpresent
    | _ => rfl

theorem decode_eq_ok_iff {hasCset : Bool} {w : BitVec 32} {i : Instr} :
    decode hasCset w = .ok i ↔ i.present hasCset = true ∧ ctlFields w = i.fields :=
  decodeFields_eq_ok_iff

/-- What the mask of a row holds over a field of `k` bits: every bit if the row fixes the field, none if it does not. -/
def maskBits (fixed : Bool) (k : Nat) : Nat := if fixed then 2 ^ k - 1 else 0

theorem maskBits_lt (fixed : Bool) (k : Nat) : maskBits fixed k < 2 ^ k := by
  have := Nat.two_pow_pos k
  unfold maskBits
  split <;> omega

theorem and_maskBits_eq_zero_iff {a k : Nat} (ha : a < 2 ^ k) (fixed : Bool) :
    a &&& maskBits fixed k = 0 ↔ (fixed = true → a = 0) := by
  cases fixed with
  | false => simp [maskBits]
  | true => simp [maskBits, Nat.and_two_pow_sub_one_of_lt_two_pow ha]

/-- The mask of a row of 30_encoding.md R71, which always fixes the operation code. -/
def rowMask (width n indent : Bool) : BitVec 32 :=
  packCtl ⟨maskBits true 4, maskBits width 7, maskBits n 7, maskBits indent 14⟩

/-- The match of a row of 30_encoding.md R71: the operation code, over fields that are 0. -/
def rowMatch (op : Nat) : BitVec 32 := packCtl ⟨op, 0, 0, 0⟩

theorem ctlFields_rowMask (width n indent : Bool) : ctlFields (rowMask width n indent) =
    ⟨maskBits true 4, maskBits width 7, maskBits n 7, maskBits indent 14⟩ :=
  Laws.ctlFields_packCtl (maskBits_lt true 4) (maskBits_lt width 7) (maskBits_lt n 7) (maskBits_lt indent 14)

theorem ctlFields_rowMatch {op : Nat} (hop : op < 2 ^ 4) : ctlFields (rowMatch op) = ⟨op, 0, 0, 0⟩ :=
  Laws.ctlFields_packCtl hop (Nat.two_pow_pos 7) (Nat.two_pow_pos 7) (Nat.two_pow_pos 14)

/-- A row's mask and match select the words with its operation code and with 0 in every field the row fixes. The mask
and the match come as the words R71 prints, with a closed check that they are the row's. -/
theorem and_mask_eq_match_iff {w mask v : BitVec 32} (op : Nat) (width n indent : Bool) (hop : op < 2 ^ 4 := by decide)
    (hmask : mask = rowMask width n indent := by decide) (hmatch : v = rowMatch op := by decide) :
    w &&& mask = v ↔
      (ctlFields w).op = op ∧ (width = true → (ctlFields w).width = 0) ∧ (n = true → (ctlFields w).n = 0) ∧
        (indent = true → (ctlFields w).indent = 0) := by
  subst hmask hmatch
  obtain ⟨hwop, hwwidth, hwn, hwindent⟩ := ctlFields_lt w
  have hcode : (ctlFields w).op &&& maskBits true 4 = (ctlFields w).op :=
    Nat.and_two_pow_sub_one_of_lt_two_pow hwop
  rw [← ctlFields_inj, ctlFields_and, ctlFields_rowMask, ctlFields_rowMatch hop, CtlFields.eq_mk_iff]
  simp only [hcode, and_maskBits_eq_zero_iff hwwidth, and_maskBits_eq_zero_iff hwn,
    and_maskBits_eq_zero_iff hwindent]

/-- Settles O4: decoding to a row and its match and mask both say that the operation code is the row's and that the
fields the row does not use are 0. -/
theorem rowsSelectedByMatchAndMask : Obligations.RowsSelectedByMatchAndMask := by
  unfold Obligations.RowsSelectedByMatchAndMask
  intro hasCset w
  simp only [decode_eq_ok_iff, Instr.present, Instr.fields, CtlFields.eq_mk_iff, true_and]
  refine ⟨?_, ?_, ?_, ?_, ?_, ?_, ?_, ?_, ?_, ?_, ?_⟩
  · rw [and_mask_eq_match_iff 1 true true true]; simp
  · rw [and_mask_eq_match_iff 2 false true false]; simp
  · rw [and_mask_eq_match_iff 3 false true false]; simp
  · rw [and_mask_eq_match_iff 4 false false false]; simp
  · rw [and_mask_eq_match_iff 5 false false false]; simp
  · rw [and_mask_eq_match_iff 6 false true true]; simp
  · rw [and_mask_eq_match_iff 7 true true true]; simp
  · rw [and_mask_eq_match_iff 8 true false false]; simp
  · rw [and_mask_eq_match_iff 9 false false false]; simp
  · rw [and_mask_eq_match_iff 10 false false false]; simp
  · rw [and_mask_eq_match_iff 11 true false true]; simp

/-- The fields of a word that is no command, as 30_encoding.md R72 lists them: a reserved operation code, `CSET` in a
build without it, or an unused field that is not 0. -/
def CtlFields.Illegal (hasCset : Bool) (f : CtlFields) : Prop :=
  f.op = 0 ∨ 12 ≤ f.op ∨ (f.op = 10 ∧ hasCset = false) ∨
    (f.op ∈ [1, 7] ∧ (f.width ≠ 0 ∨ f.n ≠ 0 ∨ f.indent ≠ 0)) ∨
    (f.op ∈ [2, 3] ∧ f.n ≠ 0) ∨
    (f.op = 6 ∧ (f.n ≠ 0 ∨ f.indent ≠ 0)) ∨
    (f.op = 8 ∧ f.width ≠ 0) ∨
    (f.op = 11 ∧ (f.width ≠ 0 ∨ f.indent ≠ 0))

theorem exists_ite_eq_error_iff {p : Prop} [Decidable p] {i : Instr} {e : DecodeError} :
    (∃ e', (if p then Except.ok i else .error e) = .error e') ↔ ¬ p := by
  by_cases hp : p <;> simp [hp]

/-- The decoder fails on exactly the illegal fields: of each operation code, those its arm of the decoder excludes. -/
theorem exists_decodeFields_eq_error_iff (hasCset : Bool) (f : CtlFields) :
    (∃ e, decodeFields hasCset f = .error e) ↔ f.Illegal hasCset := by
  obtain ⟨op, width, n, indent⟩ := f
  rcases Nat.lt_or_ge op 12 with hop | hop
  · interval_cases op
    all_goals simp [decodeFields, CtlFields.Illegal, exists_ite_eq_error_iff, not_and_or, -not_and]
  · obtain ⟨k, rfl⟩ := Nat.exists_eq_add_of_le' hop
    exact ⟨fun _ => .inr (.inl hop), fun _ => ⟨.reservedOp (k + 12), rfl⟩⟩

namespace Machine

theorem step_command {s : State} {c : Command} {rest : List HostMove} (h : s.inbox = .command c :: rest) :
    step s = runCommand c { s with inbox := rest } := by
  simp only [step, h, applyMove]

theorem runCommand_eq_raise {c : Command} {s : State} {e : DecodeError}
    (h : decode s.params.hasCset c.ctl = .error e) : runCommand c s = (s.accept c).raise .illegalOp := by
  simp only [runCommand, h]

/-- Settles O5: the decoder's errors by operation code, and the answer of `runCommand` to a word that decodes to
nothing. -/
theorem illegalWordsAnsweredIllegalOp : Obligations.IllegalWordsAnsweredIllegalOp := by
  unfold Obligations.IllegalWordsAnsweredIllegalOp
  constructor
  · exact fun hasCset w => exists_decodeFields_eq_error_iff hasCset (ctlFields w)
  · intro s c rest e hinbox hdecode
    exact (step_command hinbox).trans (runCommand_eq_raise hdecode)

end Machine

end Sys2Proof

/-! `BSIZE` (40_primitives.md R90, R98). -/

namespace Sys2Proof.Machine

theorem bitSize_of_pos {v : Nat} (hv : 0 < v) : bitSize v = Nat.log2 v + 1 := if_neg hv.ne'

theorem lt_two_pow_bitSize (v : Nat) : v < 2 ^ bitSize v := (bitSize_le_iff (bitSize_pos v)).1 le_rfl

theorem two_pow_bitSize_sub_one_le {v : Nat} (hv : 0 < v) : 2 ^ (bitSize v - 1) ≤ v := by
  rw [bitSize_of_pos hv, Nat.add_sub_cancel]
  exact Nat.log2_self_le hv.ne'

theorem State.bitSize_valueOperand_le (s : State) : bitSize s.valueOperand ≤ s.cap :=
  (bitSize_le_iff s.params.capacity.bits_pos).2 (truncBits_lt _ _)

/-- The answer of `BSIZE` is never cut by the 7 bits of its payload, a word having at most 64 bits. -/
theorem State.toNat_bitSize_valueOperand (s : State) :
    (BitVec.ofNat 7 (bitSize s.valueOperand)).toNat = bitSize s.valueOperand := by
  have hle : bitSize s.valueOperand ≤ 64 := s.bitSize_valueOperand_le.trans s.params.capacity.bits_le
  exact Nat.mod_eq_of_lt (hle.trans_lt (by decide))

theorem decode_eq_ok_bsize_iff {hasCset : Bool} {w : BitVec 32} :
    decode hasCset w = .ok .bsize ↔ w = 0x10000000#32 := by
  have hfields : ctlFields 0x10000000#32 = Instr.bsize.fields := by decide
  rw [decode_eq_ok_iff, ← hfields, ctlFields_inj]
  exact and_iff_right rfl

/-- Settles O31: the answer is `bitSize` of the operand, which is the minimal width and fits the payload. -/
theorem bsizeAnswersTheMinimalWidth : Obligations.BsizeAnswersTheMinimalWidth := by
  unfold Obligations.BsizeAnswersTheMinimalWidth
  refine ⟨fun _ _ => decode_eq_ok_bsize_iff, fun s => ⟨BitVec.ofNat 7 (bitSize s.valueOperand), rfl, ?_⟩⟩
  rw [s.toNat_bitSize_valueOperand]
  refine ⟨fun hzero => ?_, fun hpos => ?_, bitSize_pos _, s.bitSize_valueOperand_le⟩
  · rw [hzero]
    rfl
  · exact ⟨two_pow_bitSize_sub_one_le hpos, lt_two_pow_bitSize _⟩

end Sys2Proof.Machine

/-! `GET` and `SET` (41_scalar.md R110 to R112), and the laws of `Insert` and `Extract` they rest on (40_primitives.md R95). -/

namespace Sys2Proof.Machine

/-- `Extract` reads back what `Insert` put in the field (40_primitives.md R95). -/
theorem extractField_insertField {C b i w : Nat} (v : Nat) (hb : b < 2 ^ C) (h : i + w ≤ C) :
    extractField (insertField C b i w v) i w = v % 2 ^ w := by
  apply Nat.eq_of_testBit_eq
  intro t
  rw [testBit_extractField, testBit_insertField v hb h, Nat.testBit_mod_two_pow]
  by_cases ht : t < w <;> simp [ht]

/-- A second `Insert` of the same value into the same field changes nothing (40_primitives.md R95). -/
theorem insertField_insertField {C b i w : Nat} (v : Nat) (hb : b < 2 ^ C) (h : i + w ≤ C) :
    insertField C (insertField C b i w v) i w v = insertField C b i w v := by
  apply Nat.eq_of_testBit_eq
  intro t
  rw [testBit_insertField v (insertField_lt v hb h) h, testBit_insertField v hb h]
  split_ifs <;> rfl

theorem extractField_zero_of_lt {b w : Nat} (hb : b < 2 ^ w) : extractField b 0 w = b := by
  rw [extractField_eq, Nat.pow_zero, Nat.div_one, Nat.mod_eq_of_lt hb]

/-- The field that is the whole word holds the value alone (40_primitives.md R95). -/
theorem insertField_full {C b : Nat} (v : Nat) (hb : b < 2 ^ C) : insertField C b 0 C v = v % 2 ^ C := by
  have hspan : 0 + C ≤ C := (Nat.zero_add C).le
  rw [← extractField_zero_of_lt (insertField_lt v hb hspan), extractField_insertField v hb hspan]

theorem valueTooWide_iff {v w : Nat} (hw : 0 < w) : valueTooWide v w ↔ 2 ^ w ≤ v := by
  rw [← Nat.not_lt, ← bitSize_le_iff hw, Nat.not_le]

theorem State.bitsOperand_lt (s : State) : s.bitsOperand < 2 ^ s.cap := truncBits_lt _ _

/-- A `CAPACITY`-bit number comes through the `bits` lane as it is. -/
theorem State.bitsOperand_of_port_bits {s : State} {a : Nat} (h : s.port.bits.toNat = a) (ha : a < 2 ^ s.cap) :
    s.bitsOperand = a := by
  rw [State.bitsOperand, h, truncBits_of_lt ha]

theorem State.cap_congr {s s' : State} (h : s'.params = s.params) : s'.cap = s.cap := by rw [State.cap, h]

theorem State.valueOperand_congr {s s' : State} (hp : s'.params = s.params) (hv : s'.port.value = s.port.value) :
    s'.valueOperand = s.valueOperand := by
  rw [State.valueOperand, State.valueOperand, State.cap_congr hp, hv]

theorem decode_eq_ok_get_iff {hasCset : Bool} {w : BitVec 32} {width indent : Nat} :
    decode hasCset w = .ok (.get width indent) ↔ ctlFields w = ⟨2, width, 0, indent⟩ :=
  decode_eq_ok_iff.trans (and_iff_right rfl)

theorem decode_eq_ok_set_iff {hasCset : Bool} {w : BitVec 32} {width indent : Nat} :
    decode hasCset w = .ok (.set width indent) ↔ ctlFields w = ⟨3, width, 0, indent⟩ :=
  decode_eq_ok_iff.trans (and_iff_right rfl)

section

variable {width indent : Nat} {s : State}

theorem exec_get_of_width_eq_zero (hzero : width = 0) : exec (.get width indent) s = s.raise .badOperand :=
  if_pos hzero

theorem exec_get_of_span_past_word (hpos : 0 < width) (hspan : s.cap < indent % s.cap + width) :
    exec (.get width indent) s = s.raise .rangeError :=
  (if_neg hpos.ne').trans (if_pos hspan)

/-- `GET` of a field inside the word answers the field, which the payload holds uncut. -/
theorem exec_get_eq_ok (hpos : 0 < width) (hspan : indent % s.cap + width ≤ s.cap) : ∃ r : Word,
    exec (.get width indent) s = s.ret (.res r) ∧ r.toNat = extractField s.bitsOperand (indent % s.cap) width := by
  have hlt : extractField s.bitsOperand (indent % s.cap) width < 2 ^ s.cap :=
    (extractField_lt _ _ _).trans_le (Nat.pow_le_pow_right (by decide) (le_of_add_le_right hspan))
  exact ⟨_, (if_neg hpos.ne').trans (if_neg (Nat.not_lt.2 hspan)), toWord_toNat_of_lt_capacity hlt⟩

theorem exec_set_of_width_eq_zero (hzero : width = 0) : exec (.set width indent) s = s.raise .badOperand :=
  if_pos hzero

theorem exec_set_of_overflow (hpos : 0 < width)
    (h : 2 ^ width ≤ s.valueOperand ∨ s.cap < indent % s.cap + width) :
    exec (.set width indent) s = s.raise .overflowError :=
  (if_neg hpos.ne').trans (if_pos (h.imp_left (valueTooWide_iff hpos).2))

/-- `SET` of a value that fits, in a field inside the word, answers the word with the field replaced, which the payload
holds uncut. -/
theorem exec_set_eq_ok (hpos : 0 < width) (hfit : s.valueOperand < 2 ^ width) (hspan : indent % s.cap + width ≤ s.cap) :
    ∃ r : Word, exec (.set width indent) s = s.ret (.res r) ∧
      r.toNat = insertField s.cap s.bitsOperand (indent % s.cap) width s.valueOperand := by
  have hok : ¬ (valueTooWide s.valueOperand width ∨ s.spanPastWord (s.wordIndent indent) width) :=
    not_or.2 ⟨mt (valueTooWide_iff hpos).1 (Nat.not_le.2 hfit), Nat.not_lt.2 hspan⟩
  exact ⟨_, (if_neg hpos.ne').trans (if_neg hok),
    toWord_toNat_of_lt_capacity (insertField_lt _ s.bitsOperand_lt hspan)⟩

end

/-- Settles O32: the three ends of `GET`, the field being a quotient and a remainder of the word. -/
theorem getAnswersTheField : Obligations.GetAnswersTheField := by
  unfold Obligations.GetAnswersTheField
  intro width indent
  refine ⟨fun _ _ => decode_eq_ok_get_iff, fun s => ⟨exec_get_of_width_eq_zero, exec_get_of_span_past_word, ?_⟩⟩
  intro hpos hspan
  obtain ⟨r, hexec, hr⟩ := exec_get_eq_ok hpos hspan
  exact ⟨r, hexec, hr.trans (extractField_eq _ _ _)⟩

/-- A word whose number is an `Insert`, read bit by bit. -/
theorem getLsbD_of_toNat_eq_insertField {C b i w v : Nat} {r : Word} (hb : b < 2 ^ C) (h : i + w ≤ C)
    (hr : r.toNat = insertField C b i w v) (t : Nat) :
    r.getLsbD t = if i ≤ t ∧ t < i + w then v.testBit (t - i) else b.testBit t := by
  rw [← BitVec.testBit_toNat, hr, testBit_insertField v hb h]

/-- Settles O33: the three ends of `SET`, the answered word being an `Insert` read bit by bit. -/
theorem setAnswersTheWordWithTheFieldReplaced : Obligations.SetAnswersTheWordWithTheFieldReplaced := by
  unfold Obligations.SetAnswersTheWordWithTheFieldReplaced
  intro width indent
  refine ⟨fun _ _ => decode_eq_ok_set_iff, fun s => ⟨exec_set_of_width_eq_zero, exec_set_of_overflow, ?_⟩⟩
  intro hpos hfit hspan
  obtain ⟨r, hexec, hr⟩ := exec_set_eq_ok hpos hfit hspan
  exact ⟨r, hexec, getLsbD_of_toNat_eq_insertField s.bitsOperand_lt hspan hr⟩

/-- Settles O34: the host passes the answer of the first `SET` on as `bits`, where it is still the `Insert`; the laws of
`Insert` and `Extract` do the rest. -/
theorem getAfterSetAndSetTwice : Obligations.GetAfterSetAndSetTwice := by
  unfold Obligations.GetAfterSetAndSetTwice
  intro width indent s hpos hfit hspan
  obtain ⟨r, hexec, hr⟩ := exec_set_eq_ok hpos hfit hspan
  have hlt := insertField_lt s.valueOperand s.bitsOperand_lt hspan
  have hbits {s' : State} (hp : s'.params = s.params) (hb : s'.port.bits = r) :
      s'.bitsOperand = insertField s.cap s.bitsOperand (indent % s.cap) width s.valueOperand :=
    State.bitsOperand_of_port_bits (hb ▸ hr) (State.cap_congr hp ▸ hlt)
  refine ⟨r, hexec, fun t ht => ?outside, fun s' hp hb => ?roundTrip, fun s' hp hb hv => ?again, fun hfull => ?full⟩
  case outside =>
    rw [getLsbD_of_toNat_eq_insertField s.bitsOperand_lt hspan hr, if_neg (by omega)]
  case roundTrip =>
    obtain ⟨v, hget, hval⟩ := exec_get_eq_ok (s := s') hpos (State.cap_congr hp ▸ hspan)
    refine ⟨v, hget, ?_⟩
    rw [hval, hbits hp hb, State.cap_congr hp, extractField_insertField _ s.bitsOperand_lt hspan,
      Nat.mod_eq_of_lt hfit]
  case again =>
    have hvalue : s'.valueOperand = s.valueOperand := State.valueOperand_congr hp hv
    obtain ⟨r', hset, hr'⟩ := exec_set_eq_ok (s := s') hpos (hvalue ▸ hfit) (State.cap_congr hp ▸ hspan)
    rw [hvalue, hbits hp hb, State.cap_congr hp, insertField_insertField _ s.bitsOperand_lt hspan, ← hr] at hr'
    obtain rfl : r' = r := BitVec.eq_of_toNat_eq hr'
    exact hset
  case full =>
    have hindent : indent % s.cap = 0 := by omega
    rw [hr, hindent, hfull, insertField_full _ s.bitsOperand_lt, Nat.mod_eq_of_lt (hfull ▸ hfit)]

end Sys2Proof.Machine

/-! `GETB` and `SETB` (42_bulk.md R120, R121), and what their loops answer field by field and bit by bit. -/

namespace Sys2Proof.Machine

theorem foldl_max_lt_iff {vs : List Nat} {a b : Nat} : vs.foldl max a < b ↔ a < b ∧ ∀ v ∈ vs, v < b := by
  induction vs generalizing a with
  | nil => simp
  | cons v vs ih => rw [List.foldl_cons, ih, max_lt_iff, List.forall_mem_cons, and_assoc]

/-- The check on the maximum finds an oversize element wherever it stands (42_bulk.md R121). -/
theorem elementTooWide_iff {vs : List Nat} {w : Nat} (hw : 0 < w) : elementTooWide vs w ↔ ∃ v ∈ vs, 2 ^ w ≤ v := by
  have hmax : bitSize (vs.foldl max 0) > w ↔ ∃ v ∈ vs, 2 ^ w ≤ v := by
    rw [gt_iff_lt, ← Nat.not_le, bitSize_le_iff hw, foldl_max_lt_iff]
    simp
  rw [elementTooWide, hmax, and_iff_right_iff_imp]
  rintro ⟨v, hv, -⟩
  exact List.ne_nil_of_mem hv

@[simp] theorem State.length_seqOperand (s : State) (n : Nat) : (s.seqOperand n).length = n := by
  simp [State.seqOperand]

theorem State.getD_seqOperand {s : State} {n k : Nat} (hk : k < n) : (s.seqOperand n).getD k 0 = s.seqLane k := by
  simp [State.seqOperand, hk]

theorem State.elementTooWide_seqOperand_iff {s : State} {n w : Nat} (hw : 0 < w) :
    elementTooWide (s.seqOperand n) w ↔ ∃ k, k < n ∧ 2 ^ w ≤ s.seqLane k := by
  simp [elementTooWide_iff hw, State.seqOperand]

@[simp] theorem length_getFields (b i w n : Nat) : (getFields b i w n).length = n := by simp [getFields]

theorem getD_getFields {n k : Nat} (b i w : Nat) (hk : k < n) :
    (getFields b i w n).getD k 0 = b / 2 ^ (i + k * w) % 2 ^ w := by
  simp [getFields_eq, hk]

/-- A field is no larger than the word it is read from. -/
theorem lt_of_mem_getFields {b c i w n v : Nat} (hb : b < c) (hv : v ∈ getFields b i w n) : v < c := by
  rw [getFields_eq] at hv
  obtain ⟨k, -, rfl⟩ := List.mem_map.1 hv
  exact ((Nat.mod_le _ _).trans (Nat.div_le_self _ _)).trans_lt hb

theorem map_toNat_map_toWord {c : Capacity} {vs : List Nat} (h : ∀ v ∈ vs, v < 2 ^ c.bits) :
    (vs.map toWord).map BitVec.toNat = vs := by
  rw [List.map_map]
  exact (List.map_congr_left fun v hv => toWord_toNat_of_lt_capacity (h v hv)).trans (List.map_id vs)

/-- The bulk insertion bit by bit: bit `t - i` of the fields is bit `(t - i) mod w` of element `(t - i) / w`, every
other bit is the word's (42_bulk.md R121). -/
theorem testBit_putFields {C b i w : Nat} {vs : List Nat} (hw : 0 < w) (hb : b < 2 ^ C) (h : i + vs.length * w ≤ C)
    (t : Nat) : (putFields C w b i vs).testBit t =
      if i ≤ t ∧ t < i + vs.length * w then (vs.getD ((t - i) / w) 0).testBit ((t - i) % w) else b.testBit t := by
  induction vs generalizing b i with
  | nil => rw [putFields, List.length_nil, Nat.zero_mul, if_neg (by omega)]
  | cons v vs ih =>
    rw [List.length_cons, Nat.succ_mul] at h ⊢
    have hspan : i + w ≤ C := by omega
    rw [putFields, ih (insertField_lt v hb hspan) (by omega), testBit_insertField v hb hspan]
    rcases Nat.lt_or_ge t (i + w) with hlt | hge
    · rw [if_neg (by omega)]
      refine if_ctx_congr (by omega) (fun hfirst => ?_) fun _ => rfl
      have hd : t - i < w := by omega
      rw [Nat.div_eq_of_lt hd, Nat.mod_eq_of_lt hd, List.getD_cons_zero]
    · rw [if_neg (c := i ≤ t ∧ t < i + w) (by omega)]
      refine if_ctx_congr (by omega) (fun _ => ?_) fun _ => rfl
      have hd : t - i = t - (i + w) + w := by omega
      rw [hd, Nat.add_div_right _ hw, Nat.add_mod_right, List.getD_cons_succ]

section

variable {width n indent : Nat} {s : State}

theorem decode_eq_ok_getb_iff {hasCset : Bool} {w : BitVec 32} :
    decode hasCset w = .ok (.getb width n indent) ↔ ctlFields w = ⟨4, width, n, indent⟩ :=
  decode_eq_ok_iff.trans (and_iff_right rfl)

theorem decode_eq_ok_setb_iff {hasCset : Bool} {w : BitVec 32} :
    decode hasCset w = .ok (.setb width n indent) ↔ ctlFields w = ⟨5, width, n, indent⟩ :=
  decode_eq_ok_iff.trans (and_iff_right rfl)

theorem exec_getb_of_width_eq_zero (hzero : width = 0) : exec (.getb width n indent) s = s.raise .badOperand :=
  if_pos hzero

theorem exec_getb_of_fields_past_word (hpos : 0 < width) (hspan : s.cap < indent % s.cap + n * width) :
    exec (.getb width n indent) s = s.raise .overflowError :=
  (if_neg hpos.ne').trans (if_pos hspan)

/-- `GETB` of fields inside the word answers them all, and the payload holds each uncut. -/
theorem exec_getb_eq_ok (hpos : 0 < width) (hspan : indent % s.cap + n * width ≤ s.cap) : ∃ vs : List Word,
    exec (.getb width n indent) s = s.ret (.seqOut vs) ∧
      vs.map BitVec.toNat = getFields s.bitsOperand (indent % s.cap) width n :=
  ⟨_, (if_neg hpos.ne').trans (if_neg (Nat.not_lt.2 hspan)),
    map_toNat_map_toWord fun _ => lt_of_mem_getFields s.bitsOperand_lt⟩

theorem exec_setb_of_width_eq_zero (hzero : width = 0) : exec (.setb width n indent) s = s.raise .badOperand :=
  if_pos hzero

theorem exec_setb_of_overflow (hpos : 0 < width)
    (h : s.cap < indent % s.cap + n * width ∨ ∃ k, k < n ∧ 2 ^ width ≤ s.seqLane k) :
    exec (.setb width n indent) s = s.raise .overflowError := by
  by_cases hspan : s.cap < indent % s.cap + n * width
  · exact (if_neg hpos.ne').trans (if_pos hspan)
  · have hseq := (State.elementTooWide_seqOperand_iff hpos).2 (h.resolve_left hspan)
    exact (if_neg hpos.ne').trans ((if_neg hspan).trans (if_pos hseq))

/-- `SETB` of elements that all fit, in fields inside the word, answers the word with the elements inserted, which the
payload holds uncut. -/
theorem exec_setb_eq_ok (hpos : 0 < width) (hspan : indent % s.cap + n * width ≤ s.cap)
    (hfit : ∀ k, k < n → s.seqLane k < 2 ^ width) : ∃ r : Word,
    exec (.setb width n indent) s = s.ret (.res r) ∧
      r.toNat = putFields s.cap width s.bitsOperand (indent % s.cap) (s.seqOperand n) := by
  have hseq : ¬ elementTooWide (s.seqOperand n) width := by
    rw [State.elementTooWide_seqOperand_iff hpos]
    rintro ⟨k, hk, hwide⟩
    exact Nat.not_le.2 (hfit k hk) hwide
  have hlen : indent % s.cap + (s.seqOperand n).length * width ≤ s.cap := by rwa [s.length_seqOperand]
  exact ⟨_, (if_neg hpos.ne').trans ((if_neg (Nat.not_lt.2 hspan)).trans (if_neg hseq)),
    toWord_toNat_of_lt_capacity (putFields_lt s.bitsOperand_lt hlen)⟩

end

/-- Settles O37: the three ends of `GETB`, the payload read as numbers being the list of the fields. -/
theorem getbAnswersEveryField : Obligations.GetbAnswersEveryField := by
  unfold Obligations.GetbAnswersEveryField
  intro width n indent
  refine ⟨fun _ _ => decode_eq_ok_getb_iff,
    fun s => ⟨exec_getb_of_width_eq_zero, exec_getb_of_fields_past_word, fun hpos hspan => ?_⟩⟩
  obtain ⟨vs, hexec, hvs⟩ := exec_getb_eq_ok hpos hspan
  refine ⟨vs, hexec, ?length, fun k hk => ?element⟩
  case length =>
    rw [← List.length_map (f := BitVec.toNat), hvs, length_getFields]
  case element =>
    rw [← getD_getFields _ _ _ hk, ← hvs]
    exact (List.getD_map vs 0 BitVec.toNat).symm

/-- Settles O38: the three ends of `SETB`, the answered word being the bulk insertion read bit by bit. -/
theorem setbAnswersTheWordWithTheFieldsReplaced : Obligations.SetbAnswersTheWordWithTheFieldsReplaced := by
  unfold Obligations.SetbAnswersTheWordWithTheFieldsReplaced
  intro width n indent
  refine ⟨fun _ _ => decode_eq_ok_setb_iff,
    fun s => ⟨exec_setb_of_width_eq_zero, exec_setb_of_overflow, fun hpos hspan hfit => ?_⟩⟩
  obtain ⟨r, hexec, hr⟩ := exec_setb_eq_ok hpos hspan hfit
  refine ⟨r, hexec, fun t => ?_⟩
  have hlen : indent % s.cap + (s.seqOperand n).length * width ≤ s.cap := by rwa [s.length_seqOperand]
  rw [← BitVec.testBit_toNat, hr, testBit_putFields hpos s.bitsOperand_lt hlen, s.length_seqOperand]
  refine if_ctx_congr Iff.rfl (fun ht => ?_) fun _ => rfl
  have hk : (t - indent % s.cap) / width < n := (Nat.div_lt_iff_lt_mul hpos).2 (by omega)
  rw [State.getD_seqOperand hk]

end Sys2Proof.Machine

/-! `IDX` and `STR` (43_search_render.md R130, R131): what the scan finds, and the rendering symbol by symbol. -/

namespace Sys2Proof.Machine

theorem findField_eq_some {b w v cnt k : Nat} (h : findField b w v cnt = some k) :
    k < cnt ∧ b / 2 ^ (k * w) % 2 ^ w = v ∧ ∀ l, l < k → b / 2 ^ (l * w) % 2 ^ w ≠ v := by
  simpa only [h, extractField_eq] using findField_spec b w v cnt

theorem findField_eq_none {b w v cnt : Nat} (h : findField b w v cnt = none) :
    ∀ k, k < cnt → b / 2 ^ (k * w) % 2 ^ w ≠ v := by
  simpa only [h, extractField_eq] using findField_spec b w v cnt

/-- The 7 bits of the payload hold the index of any field of the word uncut. -/
theorem State.toNat_fieldIndex {s : State} {width k : Nat} (hk : k < s.cap / width) : (BitVec.ofNat 7 k).toNat = k := by
  have hlt : k < 64 := hk.trans_le ((Nat.div_le_self _ _).trans s.params.capacity.bits_le)
  exact Nat.mod_eq_of_lt (hlt.trans (by decide))

theorem getElem?_render {C p : Nat} (b : Nat) (hp : p < C) :
    (render C b)[p]? = some (if b.testBit (C - 1 - p) then .one else .zero) := by
  rw [render, List.getElem?_map, List.getElem?_range hp]
  rfl

theorem decode_eq_ok_idx_iff {hasCset : Bool} {w : BitVec 32} {width : Nat} :
    decode hasCset w = .ok (.idx width) ↔ ctlFields w = ⟨6, width, 0, 0⟩ :=
  decode_eq_ok_iff.trans (and_iff_right rfl)

theorem decode_eq_ok_str_iff {hasCset : Bool} {w : BitVec 32} : decode hasCset w = .ok .str ↔ w = 0x70000000#32 := by
  have hfields : ctlFields 0x70000000#32 = Instr.str.fields := by decide
  rw [decode_eq_ok_iff, ← hfields, ctlFields_inj]
  exact and_iff_right rfl

section

variable {width : Nat} {s : State}

theorem exec_idx_of_width_eq_zero (hzero : width = 0) : exec (.idx width) s = s.raise .badOperand :=
  if_pos hzero

theorem exec_idx_of_value_too_wide (hpos : 0 < width) (hwide : 2 ^ width ≤ s.valueOperand) :
    exec (.idx width) s = s.raise .overflowError :=
  (if_neg hpos.ne').trans (if_pos ((valueTooWide_iff hpos).2 hwide))

/-- `IDX` of a value that fits answers what the scan of the whole fields finds. -/
theorem exec_idx_eq_ok (hpos : 0 < width) (hfit : s.valueOperand < 2 ^ width) :
    exec (.idx width) s =
      s.ret (searchPayload (findField s.bitsOperand width s.valueOperand (s.cap / width))) :=
  (if_neg hpos.ne').trans (if_neg (mt (valueTooWide_iff hpos).1 (Nat.not_le.2 hfit)))

end

/-- Settles O40: the three ends of `IDX`, the last by whether the scan finds a field. -/
theorem idxAnswersTheFirstMatch : Obligations.IdxAnswersTheFirstMatch := by
  unfold Obligations.IdxAnswersTheFirstMatch
  intro width
  refine ⟨fun _ _ => decode_eq_ok_idx_iff,
    fun s => ⟨exec_idx_of_width_eq_zero, exec_idx_of_value_too_wide, fun hpos hfit => ?_⟩⟩
  have hexec := exec_idx_eq_ok hpos hfit
  cases hscan : findField s.bitsOperand width s.valueOperand (s.cap / width) with
  | none =>
    rw [hscan] at hexec
    exact ⟨false, 0x7F#7, hexec, nofun, fun _ => ⟨rfl, findField_eq_none hscan⟩⟩
  | some k =>
    rw [hscan] at hexec
    have hmatch := findField_eq_some hscan
    refine ⟨true, BitVec.ofNat 7 k, hexec, fun _ => ?_, nofun⟩
    rwa [State.toNat_fieldIndex hmatch.1]

/-- Settles O41: the answer is `render` of the operand, read symbol by symbol. -/
theorem strRendersTheWord : Obligations.StrRendersTheWord := by
  unfold Obligations.StrRendersTheWord
  exact ⟨fun _ _ => decode_eq_ok_str_iff, fun s =>
    ⟨render s.cap s.bitsOperand, rfl, render_length _ _, fun _ hp => getElem?_render _ hp⟩⟩

end Sys2Proof.Machine

/-! `CLOC` and `CSTR` (44_chunked.md R144, R149): the chunk of a global bit, and the array rendered symbol by symbol. -/

namespace Sys2Proof.Machine

theorem State.cap_pos (s : State) : 0 < s.cap := s.params.capacity.bits_pos

/-- `ChunkForBit` counts the words of `C` bits above the one that holds the bit (44_chunked.md R140). -/
theorem chunkForBit_add_div {C n g : Nat} (h : g < n * C) : chunkForBit C n g + g / C + 1 = n := by
  have hdiv : g / C < n := Nat.div_lt_of_lt_mul (Nat.mul_comm n C ▸ h)
  rw [chunkForBit]
  omega

section

variable {hasCset : Bool} {w : BitVec 32} {n indent : Nat}

theorem decode_eq_ok_cloc_iff : decode hasCset w = .ok (.cloc n indent) ↔ ctlFields w = ⟨8, 0, n, indent⟩ :=
  decode_eq_ok_iff.trans (and_iff_right rfl)

theorem decode_eq_ok_cstr_iff : decode hasCset w = .ok (.cstr n) ↔ ctlFields w = ⟨11, 0, n, 0⟩ :=
  decode_eq_ok_iff.trans (and_iff_right rfl)

end

section

variable {n indent : Nat} {s : State}

theorem exec_cloc_of_arrayTooLong (hlong : s.params.nchunk < n) :
    exec (.cloc n indent) s = s.raise .badOperand :=
  if_pos hlong

theorem exec_cloc_of_past_array (hn : n ≤ s.params.nchunk) (hpast : n * s.cap ≤ indent) :
    exec (.cloc n indent) s = s.raise .overflowError :=
  (if_neg (Nat.not_lt.2 hn)).trans (if_pos (Nat.lt_succ_of_le hpast))

theorem exec_cloc_eq_ok (hn : n ≤ s.params.nchunk) (hin : indent < n * s.cap) :
    exec (.cloc n indent) s = s.ret (.chunk (BitVec.ofNat 7 (chunkForBit s.cap n indent))) :=
  (if_neg (Nat.not_lt.2 hn)).trans (if_neg (Nat.not_lt.2 hin))

end

/-- Settles O42: the three ends of `CLOC`, the index of an array of at most 127 chunks fitting the 7-bit payload. -/
theorem clocAnswersTheChunkIndex : Obligations.ClocAnswersTheChunkIndex := by
  unfold Obligations.ClocAnswersTheChunkIndex
  intro n indent
  refine ⟨fun _ _ => decode_eq_ok_cloc_iff,
    fun s => ⟨exec_cloc_of_arrayTooLong, exec_cloc_of_past_array, fun hn hsmall hin => ?_⟩⟩
  refine ⟨_, exec_cloc_eq_ok hn hin, ?_⟩
  have hfits : (BitVec.ofNat 7 (chunkForBit s.cap n indent)).toNat = chunkForBit s.cap n indent :=
    Nat.mod_eq_of_lt ((chunkForBit_lt Nat.one_ne_zero hin).trans hsmall)
  rw [hfits]
  exact chunkForBit_add_div hin

/-- Entry `j * C + p` of pieces of length `C` joined is entry `p` of piece `j`. -/
theorem getElem?_flatMap_of_length_eq {α β : Type} {f : α → List β} {C p : Nat} (hf : ∀ a, (f a).length = C)
    (hp : p < C) (l : List α) (j : Nat) : (l.flatMap f)[j * C + p]? = l[j]?.bind fun a => (f a)[p]? := by
  induction l generalizing j with
  | nil => rfl
  | cons a l ih =>
    rw [List.flatMap_cons]
    cases j with
    | zero =>
      rw [Nat.zero_mul, Nat.zero_add, List.getElem?_append_left (by rwa [hf])]
      rfl
    | succ j =>
      have hindex : (j + 1) * C + p = (f a).length + (j * C + p) := by rw [hf, Nat.succ_mul]; omega
      rw [hindex, List.getElem?_append_right (Nat.le_add_right _ _), Nat.add_sub_cancel_left, ih]
      rfl

/-- The symbols `CSTR` answers: the chunks of the array in storage order (44_chunked.md R149). -/
def State.renderArray (s : State) (n : Nat) : List Symbol := (List.range n).flatMap fun j => render s.cap (s.chunk j)

theorem State.length_renderArray (s : State) (n : Nat) : (s.renderArray n).length = n * s.cap := by
  simp [State.renderArray]

theorem State.getElem?_renderArray (s : State) {n j p : Nat} (hj : j < n) (hp : p < s.cap) :
    (s.renderArray n)[j * s.cap + p]? = some (if (s.chunk j).testBit (s.cap - 1 - p) then .one else .zero) := by
  rw [State.renderArray, getElem?_flatMap_of_length_eq (fun j => render_length s.cap (s.chunk j)) hp,
    List.getElem?_range hj, Option.bind_some, getElem?_render _ hp]

theorem exec_cstr_of_arrayTooLong {n : Nat} {s : State} (hlong : s.params.nchunk < n) :
    exec (.cstr n) s = s.raise .badOperand :=
  if_pos hlong

theorem exec_cstr_eq_ok {n : Nat} {s : State} (hn : n ≤ s.params.nchunk) :
    exec (.cstr n) s =
      { s with accesses := s.accesses ++ (List.range n).map Access.read }.ret (.str (s.renderArray n)) := by
  rw [State.renderArray, List.range_eq_range']
  refine (if_neg (Nat.not_lt.2 hn)).trans ?_
  rw [renderChunks_eq]

/-- Settles O48: the two ends of `CSTR`, the second being the chunks rendered one after the other. -/
theorem cstrRendersTheArray : Obligations.CstrRendersTheArray := by
  unfold Obligations.CstrRendersTheArray
  intro n
  exact ⟨fun _ _ => decode_eq_ok_cstr_iff, fun s => ⟨exec_cstr_of_arrayTooLong, fun hn =>
    ⟨s.renderArray n, exec_cstr_eq_ok hn, s.length_renderArray n, fun _ _ => s.getElem?_renderArray⟩⟩⟩

end Sys2Proof.Machine

/-! `CGET` (44_chunked.md R145): which chunks the gathering loop reads, and that what it gathers is the field. -/

namespace Sys2Proof.Machine

/-- Bit `g` of the array of `n` chunks, in the chunk and at the place 44_chunked.md R140 and R141 give it. -/
def State.arrayBit (s : State) (n g : Nat) : Bool := (s.chunk (chunkForBit s.cap n g)).testBit (g % s.cap)

/-- Bit `b` of chunk `j` is bit `(n - 1 - j) * C + b` of the array (44_chunked.md R141). -/
theorem State.arrayBit_eq_testBit_chunk (s : State) {n j b : Nat} (hj : j < n) (hb : b < s.cap) :
    s.arrayBit n ((n - 1 - j) * s.cap + b) = (s.chunk j).testBit b := by
  have hdiv : ((n - 1 - j) * s.cap + b) / s.cap = n - 1 - j := by
    rw [Nat.mul_comm, Nat.mul_add_div s.cap_pos, Nat.div_eq_of_lt hb, Nat.add_zero]
  have hindex : chunkForBit s.cap n ((n - 1 - j) * s.cap + b) = j := by
    rw [chunkForBit, hdiv]
    omega
  rw [State.arrayBit, hindex, Nat.mul_add_mod_of_lt hb]

theorem State.testBit_chunk_of_cap_le (s : State) {b : Nat} (j : Nat) (hb : s.cap ≤ b) :
    (s.chunk j).testBit b = false :=
  Nat.testBit_lt_two_pow ((s.chunk_lt j).trans_le (Nat.pow_le_pow_right (by decide) hb))

/-- No bits need no chunk, in the form `ceil(x / C)` has in 44_chunked.md R145. -/
theorem ceil_div_zero {C : Nat} (hC : 0 < C) : (0 + C - 1) / C = 0 :=
  Nat.div_eq_of_lt (by omega)

/-- `ceil(x / C)` counts one chunk for the first `C` bits, and those the bits past it need. -/
theorem ceil_div_of_pos {C x : Nat} (hC : 0 < C) (hx : 0 < x) : (x + C - 1) / C = (x - C + C - 1) / C + 1 := by
  rcases Nat.le_total x C with hle | hge
  · have hfirst : x + C - 1 = x - 1 + C := by omega
    rw [Nat.sub_eq_zero_of_le hle, ceil_div_zero hC, hfirst, Nat.add_div_right _ hC, Nat.div_eq_of_lt (by omega)]
  · have hrest : x + C - 1 = x - C + C - 1 + C := by omega
    rw [hrest, Nat.add_div_right _ hC]

/-- The reads of `m` chunks from `k` down (44_chunked.md R145). -/
def readsDown (k m : Nat) : List Access := (List.range m).map fun i => .read (k - i)

theorem readsDown_succ (k m : Nat) : readsDown k (m + 1) = .read k :: readsDown (k - 1) m := by
  simp [readsDown, List.range_succ_eq_map, Function.comp_def, Nat.sub_sub, Nat.add_comm 1]

/-- The state after several memory accesses are noted. -/
def State.noteAll (s : State) (as : List Access) : State := { s with accesses := s.accesses ++ as }

theorem State.noteAll_nil (s : State) : s.noteAll [] = s := by simp [State.noteAll]

theorem State.noteAll_note (s : State) (a : Access) (as : List Access) :
    (s.note a).noteAll as = s.noteAll (a :: as) := by
  simp [State.noteAll, State.note]

/-- The gathering loop reads as many chunks as the bits past the first `got` need, and changes nothing else. -/
theorem gather_snd_eq {R width acc got k : Nat} {s : State} (h : width ≤ got + k * s.cap) :
    (gather R width s acc got k).2 = s.noteAll (readsDown (k - 1) ((width - got + s.cap - 1) / s.cap)) := by
  have hstop {got k : Nat} (s : State) (hdone : width ≤ got) :
      s = s.noteAll (readsDown (k - 1) ((width - got + s.cap - 1) / s.cap)) := by
    rw [Nat.sub_eq_zero_of_le hdone, ceil_div_zero s.cap_pos]
    exact s.noteAll_nil.symm
  induction k generalizing s acc got with
  | zero => exact hstop s (by omega)
  | succ k ih =>
    rw [gather]
    split
    · next hmore =>
      have hrest : width ≤ got + s.cap + k * s.cap := by rwa [Nat.add_assoc, Nat.add_comm s.cap, ← Nat.succ_mul]
      rw [ceil_div_of_pos s.cap_pos (Nat.sub_pos_of_lt hmore), readsDown_succ, ← State.noteAll_note, Nat.sub_sub width]
      exact ih (s := (s.memRead k).2) hrest
    · next hdone => exact hstop s (Nat.not_lt.1 hdone)

/-- Of an array of `n` words, `n - 1 - k` stand after word `k` and `k` before it. -/
theorem sub_one_sub_mul_add_mul {n k : Nat} (C : Nat) (hk : k < n) : (n - 1 - k) * C + C + k * C = n * C := by
  obtain ⟨m, rfl⟩ := Nat.exists_eq_add_of_lt hk
  have hm : k + m + 1 - 1 - k = m := by omega
  rw [hm]
  ring

/-- The bits before bit `g` of the array, those from it to the top of its chunk, and the chunks of a lower index are all
its bits (44_chunked.md R140). -/
theorem chunkForBit_aligned {C n g : Nat} (hC : 0 < C) (hg : g < n * C) :
    g + (C - g % C) + chunkForBit C n g * C = n * C := by
  have hdiv := congrArg (· * C) (chunkForBit_add_div hg)
  have hplace := Nat.div_add_mod' g C
  have hmod := Nat.mod_lt g hC
  simp only [Nat.add_mul, Nat.one_mul] at hdiv
  omega

/-- Of the field at bit `g` of the array, `acc` holds the first `got` bits and nothing above them, as far as `R` bits
go. -/
def HoldsField (s : State) (n g R acc got : Nat) : Prop :=
  ∀ t, t < R → acc.testBit t = (decide (t < got) && s.arrayBit n (g + t))

theorem HoldsField.testBit {s : State} {n g R acc got t : Nat} (h : HoldsField s n g R acc got) (hR : t < R)
    (ht : t < got) : acc.testBit t = s.arrayBit n (g + t) := by
  rw [h t hR, decide_eq_true ht, Bool.true_and]

/-- The part of the first chunk that is in the field (44_chunked.md R145). -/
theorem holdsField_first {s : State} {n g : Nat} (R : Nat) (hg : g < n * s.cap) :
    HoldsField s n g R (s.chunk (chunkForBit s.cap n g) >>> (g % s.cap)) (s.cap - g % s.cap) := by
  intro t _
  rw [Nat.testBit_shiftRight]
  have haligned := chunkForBit_aligned s.cap_pos hg
  have hk := chunkForBit_lt Nat.one_ne_zero hg
  have hsize := sub_one_sub_mul_add_mul s.cap hk
  have hmod := Nat.mod_lt g s.cap_pos
  by_cases ht : t < s.cap - g % s.cap
  · have hplace : g + t = (n - 1 - chunkForBit s.cap n g) * s.cap + (g % s.cap + t) := by omega
    rw [hplace, s.arrayBit_eq_testBit_chunk hk (by omega), decide_eq_true ht, Bool.true_and]
  · rw [s.testBit_chunk_of_cap_le _ (by omega), decide_eq_false ht, Bool.false_and]

/-- One round of the gathering loop: chunk `k` holds the next `C` bits of the field. -/
theorem HoldsField.step {s : State} {n g R acc got k : Nat} (h : HoldsField s n g R acc got) (hk : k < n)
    (haligned : g + got + (k + 1) * s.cap = n * s.cap) :
    HoldsField s n g R (truncBits R (acc ||| (s.chunk k <<< got))) (got + s.cap) := by
  intro t ht
  rw [testBit_truncBits, Nat.testBit_or, Nat.testBit_shiftLeft, h t ht, decide_eq_true ht, Bool.true_and]
  rcases Nat.lt_or_ge t got with hold | hnew
  · simp [hold, Nat.not_le.2 hold, Nat.lt_add_right s.cap hold]
  · rw [decide_eq_false (Nat.not_lt.2 hnew), decide_eq_true hnew, Bool.false_and, Bool.false_or, Bool.true_and]
    by_cases hin : t < got + s.cap
    · have hsize := sub_one_sub_mul_add_mul s.cap hk
      have hplace : g + t = (n - 1 - k) * s.cap + (t - got) := by
        rw [Nat.succ_mul] at haligned
        omega
      rw [hplace, s.arrayBit_eq_testBit_chunk hk (by omega), decide_eq_true hin, Bool.true_and]
    · rw [s.testBit_chunk_of_cap_le k (by omega), decide_eq_false hin, Bool.false_and]

/-- The gathering loop, begun with the first bits of the field and the rest of it in the chunks below `k`, answers the
field. -/
theorem testBit_gather {R width n g acc got k t : Nat} {s : State} (h : HoldsField s n g R acc got) (hk : k ≤ n)
    (haligned : g + got + k * s.cap = n * s.cap) (hspan : g + width ≤ n * s.cap) (hwidth : width ≤ R)
    (ht : t < width) : (gather R width s acc got k).1.testBit t = s.arrayBit n (g + t) := by
  induction k generalizing s acc got with
  | zero => exact h.testBit (by omega) (by omega)
  | succ k ih =>
    rw [gather]
    split
    · have hnext : g + (got + s.cap) + k * s.cap = n * s.cap := by
        rw [Nat.succ_mul] at haligned
        omega
      exact ih (s := (s.memRead k).2) (h.step hk haligned) (Nat.le_of_succ_le hk) hnext hspan
    · next hdone => exact h.testBit (ht.trans_le hwidth) (ht.trans_le (Nat.not_lt.1 hdone))

/-- The accumulator and the state as the loop of `CGET` ends (44_chunked.md R145). -/
def State.gatherField (s : State) (width n indent : Nat) : Nat × State :=
  gather s.rcap width (s.note (.read (chunkForBit s.cap n indent)))
    (s.chunk (chunkForBit s.cap n indent) >>> (indent % s.cap)) (s.cap - indent % s.cap) (chunkForBit s.cap n indent)

theorem decode_eq_ok_cget_iff {hasCset : Bool} {w : BitVec 32} {width n indent : Nat} :
    decode hasCset w = .ok (.cget width n indent) ↔ ctlFields w = ⟨9, width, n, indent⟩ :=
  decode_eq_ok_iff.trans (and_iff_right rfl)

section

variable {width n indent : Nat} {s : State}

theorem State.gatherField_snd (hpos : 0 < width) (hspan : indent + width ≤ n * s.cap) :
    (s.gatherField width n indent).2 =
      s.noteAll (readsDown (chunkForBit s.cap n indent) ((indent % s.cap + width + s.cap - 1) / s.cap)) := by
  have haligned := chunkForBit_aligned s.cap_pos (g := indent) (n := n) (by omega)
  have hmod := Nat.mod_lt indent s.cap_pos
  have hrest : indent % s.cap + width - s.cap = width - (s.cap - indent % s.cap) := by omega
  rw [ceil_div_of_pos s.cap_pos (Nat.add_pos_right _ hpos), readsDown_succ, ← State.noteAll_note, hrest]
  exact gather_snd_eq (s := s.note _) (by rw [State.note_cap]; omega)

theorem State.testBit_gatherField_fst (hspan : indent + width ≤ n * s.cap) (hwidth : width ≤ s.rcap) {t : Nat}
    (ht : t < width) : (s.gatherField width n indent).1.testBit t = s.arrayBit n (indent + t) := by
  have hg : indent < n * s.cap := by omega
  exact testBit_gather (s := s.note _) (holdsField_first s.rcap hg) (chunkForBit_lt Nat.one_ne_zero hg).le
    (chunkForBit_aligned s.cap_pos hg) hspan hwidth ht

theorem exec_cget_of_bad_operand (hbad : width = 0 ∨ s.params.nchunk < n) :
    exec (.cget width n indent) s = s.raise .badOperand :=
  if_pos hbad

theorem exec_cget_of_overflow (hpos : 0 < width) (hn : n ≤ s.params.nchunk)
    (h : n * s.cap < indent + width ∨ s.rcap < width) :
    exec (.cget width n indent) s = s.raise .overflowError :=
  (if_neg (not_or.2 ⟨hpos.ne', Nat.not_lt.2 hn⟩)).trans (if_pos h)

/-- `CGET` of a field inside the array and no wider than the destination answers the low bits the loop has gathered,
which the payload holds uncut. -/
theorem exec_cget_eq_ok (hpos : 0 < width) (hn : n ≤ s.params.nchunk) (hspan : indent + width ≤ n * s.cap)
    (hwidth : width ≤ s.rcap) : ∃ r : Word,
    exec (.cget width n indent) s = (s.gatherField width n indent).2.ret (.cres r) ∧
      r.toNat = extractField (s.gatherField width n indent).1 0 width := by
  have hok : ¬ (s.spanPastArray n indent width ∨ s.widerThanDestination width) :=
    not_or.2 ⟨Nat.not_lt.2 hspan, Nat.not_lt.2 hwidth⟩
  have hlt : extractField (s.gatherField width n indent).1 0 width < 2 ^ s.rcap :=
    (extractField_lt _ _ _).trans_le (Nat.pow_le_pow_right (by decide) hwidth)
  exact ⟨_, (if_neg (not_or.2 ⟨hpos.ne', Nat.not_lt.2 hn⟩)).trans (if_neg hok), toWord_toNat_of_lt_capacity hlt⟩

end

/-- Settles O43: the three ends of `CGET`; what the loop gathers is the field, bit by bit, and its accesses are the
reads of the span. -/
theorem cgetAnswersTheChunkedField : Obligations.CgetAnswersTheChunkedField := by
  unfold Obligations.CgetAnswersTheChunkedField
  intro width n indent
  refine ⟨fun _ _ => decode_eq_ok_cget_iff,
    fun s => ⟨exec_cget_of_bad_operand, exec_cget_of_overflow, fun hpos hn hspan hwidth => ?_⟩⟩
  obtain ⟨r, hexec, hr⟩ := exec_cget_eq_ok hpos hn hspan hwidth
  rw [State.gatherField_snd hpos hspan] at hexec
  refine ⟨r, hexec, hr ▸ extractField_lt _ _ _, fun t ht => ?_⟩
  rw [← BitVec.testBit_toNat, hr, testBit_extractField, decide_eq_true ht, Bool.true_and, Nat.zero_add,
    State.testBit_gatherField_fst hspan hwidth ht]
  rfl

end Sys2Proof.Machine

/-! `CSET` (44_chunked.md R148): which chunks the scattering loop reads and writes, and which bits it replaces. -/

namespace Sys2Proof.Machine

/-- The rounds of `CSET` on `m` chunks from `k` down, each writing what the memory `ch` holds (44_chunked.md R148). -/
def rewritesDown (ch : Memory) (k m : Nat) : List Access :=
  (List.range m).flatMap fun i => [.read (k - i), .write (k - i) (ch.at (k - i))]

theorem rewritesDown_succ (ch : Memory) (k m : Nat) :
    rewritesDown ch k (m + 1) = [.read k, .write k (ch.at k)] ++ rewritesDown ch (k - 1) m := by
  simp [rewritesDown, List.range_succ_eq_map, List.flatMap_map, Nat.sub_sub, Nat.add_comm 1]

/-- The state after one round of the scattering loop: chunk `k` read, and written back with the low bits of `v` inserted
from `off` up, `rem` of them or as many as the chunk takes. -/
def State.insertInChunk (s : State) (k off rem v : Nat) : State :=
  (s.note (.read k)).memWrite k
    (insertField s.cap (s.chunk k) off (min (s.cap - off) rem) (v &&& lowMask (min (s.cap - off) rem)))

@[simp] theorem State.insertInChunk_cap (s : State) (k off rem v : Nat) :
    (s.insertInChunk k off rem v).cap = s.cap := rfl

theorem State.insertInChunk_at_other (s : State) {j k : Nat} (h : j ≠ k) (off rem v : Nat) :
    (s.insertInChunk k off rem v).ch.at j = s.ch.at j :=
  Memory.at_put_other _ h _

theorem State.insertInChunk_chunk_other (s : State) {j k : Nat} (h : j ≠ k) (off rem v : Nat) :
    (s.insertInChunk k off rem v).chunk j = s.chunk j :=
  (s.note _).memWrite_chunk_other h _

theorem State.insertInChunk_accesses (s : State) (k off rem v : Nat) :
    (s.insertInChunk k off rem v).accesses =
      s.accesses ++ [.read k, .write k ((s.insertInChunk k off rem v).ch.at k)] := by
  simp [State.insertInChunk]

/-- One round replaces exactly the bits of the field that are in the chunk (40_primitives.md R95). -/
theorem State.testBit_insertInChunk {s : State} {off b : Nat} (hoff : off ≤ s.cap) (hb : b < s.cap) (k rem v : Nat) :
    ((s.insertInChunk k off rem v).chunk k).testBit b =
      if off ≤ b ∧ b < off + rem then v.testBit (b - off) else (s.chunk k).testBit b := by
  have hspan : off + min (s.cap - off) rem ≤ s.cap := by omega
  rw [State.insertInChunk, State.memWrite_chunk_same, State.note_cap,
    truncBits_of_lt (insertField_lt _ (s.chunk_lt k) hspan), testBit_insertField _ (s.chunk_lt k) hspan]
  refine if_ctx_congr (by omega) (fun hin => ?_) fun _ => rfl
  rw [Nat.testBit_and, testBit_lowMask, decide_eq_true (by omega), Bool.and_true]

theorem State.chunk_congr {s t : State} {j : Nat} (hp : t.params = s.params) (h : t.ch.at j = s.ch.at j) :
    t.chunk j = s.chunk j := by
  rw [State.chunk, State.chunk, h, State.cap_congr hp]

section

variable {s : State} {off rem v k j b : Nat}

/-- The scattering loop goes on below a round that filled its chunk up or ended the field. -/
theorem scatter_succ (hoff : off ≤ s.cap) (hrem : 0 < rem) :
    scatter s off rem v (k + 1) =
      scatter (s.insertInChunk k off rem v) 0 (off + rem - s.cap) (v >>> min (s.cap - off) rem) k := by
  have hleft : off + rem - s.cap = rem - min (s.cap - off) rem := by omega
  rw [scatter, if_neg hrem.ne', hleft]
  rfl

theorem scatter_rem_zero : scatter s off 0 v k = s := by
  cases k with
  | zero => rfl
  | succ k => rw [scatter, if_pos rfl]

/-- Chunks from index `k` on are left as they were. -/
theorem scatter_at_of_le (h : k ≤ j) : (scatter s off rem v k).ch.at j = s.ch.at j := by
  obtain ⟨-, hch, -, -⟩ := scatter_frame s off rem v k
  exact hch j h

theorem scatter_params : (scatter s off rem v k).params = s.params := by
  obtain ⟨⟨hparams, -⟩, -⟩ := scatter_frame s off rem v k
  exact hparams

/-- The scattering loop reads and then writes, once each and downward, as many chunks as its bits need. -/
theorem scatter_accesses (hoff : off ≤ s.cap) (hrem : 0 < rem) (hspan : off + rem ≤ k * s.cap) :
    (scatter s off rem v k).accesses =
      s.accesses ++ rewritesDown (scatter s off rem v k).ch (k - 1) ((off + rem + s.cap - 1) / s.cap) := by
  induction k generalizing s off rem v with
  | zero => omega
  | succ k ih =>
    rw [scatter_succ hoff hrem, ceil_div_of_pos s.cap_pos (Nat.add_pos_right _ hrem), rewritesDown_succ,
      Nat.add_sub_cancel, scatter_at_of_le le_rfl, ← List.append_assoc, ← State.insertInChunk_accesses]
    rcases Nat.eq_zero_or_pos (off + rem - s.cap) with hdone | hmore
    · rw [hdone, scatter_rem_zero, ceil_div_zero s.cap_pos]
      exact (List.append_nil _).symm
    · rw [Nat.succ_mul] at hspan
      have hrest := ih (s := s.insertInChunk k off rem v) (v := v >>> min (s.cap - off) rem)
        (Nat.zero_le _) hmore (by rw [State.insertInChunk_cap]; omega)
      rwa [Nat.zero_add] at hrest

/-- A chunk that starts past the field is left as it was. -/
theorem scatter_at_of_past_field (hoff : off ≤ s.cap) (hpast : off + rem ≤ (k - 1 - j) * s.cap) :
    (scatter s off rem v k).ch.at j = s.ch.at j := by
  induction k generalizing s off rem v with
  | zero => rfl
  | succ k ih =>
    rcases Nat.eq_zero_or_pos rem with rfl | hrem
    · rw [scatter_rem_zero]
    · rw [Nat.add_sub_cancel] at hpast
      have hj : j < k := by
        refine Nat.lt_of_not_le fun hkj => ?_
        rw [Nat.sub_eq_zero_of_le hkj] at hpast
        omega
      have hlast : k - j = k - 1 - j + 1 := by omega
      rw [hlast, Nat.succ_mul] at hpast
      rw [scatter_succ hoff hrem, ih (Nat.zero_le _) (by rw [State.insertInChunk_cap]; omega)]
      exact s.insertInChunk_at_other hj.ne _ _ _

/-- The scattering loop replaces exactly the bits of the field, which begins at bit `off` of chunk `k - 1`. -/
theorem testBit_scatter (hoff : off ≤ s.cap) (hj : j < k) (hb : b < s.cap) :
    ((scatter s off rem v k).chunk j).testBit b =
      if off ≤ (k - 1 - j) * s.cap + b ∧ (k - 1 - j) * s.cap + b < off + rem then
        v.testBit ((k - 1 - j) * s.cap + b - off)
      else (s.chunk j).testBit b := by
  induction k generalizing s off rem v with
  | zero => exact absurd hj (Nat.not_lt_zero j)
  | succ k ih =>
    rcases Nat.eq_zero_or_pos rem with rfl | hrem
    · rw [scatter_rem_zero, if_neg (by omega)]
    · rw [scatter_succ hoff hrem, Nat.add_sub_cancel]
      rcases Nat.lt_succ_iff_lt_or_eq.1 hj with hlow | rfl
      · have hlast : k - j = k - 1 - j + 1 := by omega
        rw [ih (s := s.insertInChunk k off rem v) (Nat.zero_le _) hlow hb, State.insertInChunk_cap,
          s.insertInChunk_chunk_other hlow.ne, hlast, Nat.succ_mul, Nat.testBit_shiftRight]
        refine if_ctx_congr (by omega) (fun hin => ?_) fun _ => rfl
        congr 1
        omega
      · rw [State.chunk_congr scatter_params (scatter_at_of_le le_rfl), State.testBit_insertInChunk hoff hb,
          Nat.sub_self, Nat.zero_mul, Nat.zero_add]

end

/-- The distance of a chunk from the last one, in bits, measured from the chunk that holds bit `g`. -/
theorem mul_sub_chunkForBit {C n g j : Nat} (hg : g < n * C) (hj : j ≤ chunkForBit C n g) :
    (n - 1 - j) * C + g % C = (chunkForBit C n g - j) * C + g := by
  have hdiv := chunkForBit_add_div hg
  have hdist : n - 1 - j = chunkForBit C n g - j + g / C := by
    generalize g / C = q at hdiv
    omega
  rw [hdist, Nat.add_mul, Nat.add_assoc, Nat.div_add_mod']

/-- The bits of a chunk of a lower index than the one that holds bit `g` come after bit `g`. -/
theorem lt_mul_of_lt_chunkForBit {C n g j : Nat} (hC : 0 < C) (hj : j < chunkForBit C n g) : g < (n - 1 - j) * C := by
  rw [chunkForBit] at hj
  exact (Nat.div_lt_iff_lt_mul hC).1 (by omega)

/-- The bits of a chunk of a higher index than the one that holds bit `g` come before bit `g`. -/
theorem mul_add_lt_of_chunkForBit_lt {C n g j b : Nat} (hg : g < n * C) (hj : chunkForBit C n g < j) (hjn : j < n)
    (hb : b < C) : (n - 1 - j) * C + b < g := by
  have hdiv := chunkForBit_add_div hg
  have hdist : (n - 1 - j + 1) * C ≤ g / C * C := Nat.mul_le_mul_right C (by omega)
  rw [Nat.succ_mul] at hdist
  have hle := Nat.div_mul_le_self g C
  omega

/-- A state that differs outside the memory in nothing, once answered. -/
theorem answer_eq_of_sameOutsideMemory {s t : State} {as : List Access} (h : sameOutsideMemory s t)
    (has : t.accesses = as) (r : Response) :
    t.answer r = { s with ch := t.ch, port := Command.idle, responses := s.responses ++ [r], accesses := as } := by
  obtain ⟨hparams, -, hresponses, hinbox, hdraws, -⟩ := h
  rw [State.answer, hparams, hresponses, hinbox, hdraws, has]

theorem decode_eq_ok_cset_iff {hasCset : Bool} {w : BitVec 32} {width n indent : Nat} :
    decode hasCset w = .ok (.cset width n indent) ↔ hasCset = true ∧ ctlFields w = ⟨10, width, n, indent⟩ :=
  decode_eq_ok_iff

section

variable {width n indent : Nat} {s : State}

theorem exec_cset_of_not_hasCset (hcset : s.params.hasCset = false) :
    exec (.cset width n indent) s = s.raise .illegalOp :=
  if_pos hcset

theorem exec_cset_of_bad_operand (hcset : s.params.hasCset = true) (hbad : width = 0 ∨ s.params.nchunk < n) :
    exec (.cset width n indent) s = s.raise .badOperand :=
  (if_neg (ne_false_of_eq_true hcset)).trans (if_pos hbad)

theorem exec_cset_of_overflow (hcset : s.params.hasCset = true) (hpos : 0 < width) (hn : n ≤ s.params.nchunk)
    (h : 2 ^ width ≤ s.cvalueOperand ∨ n * s.cap < indent + width ∨ s.rcap < width) :
    exec (.cset width n indent) s = s.raise .overflowError :=
  (if_neg (ne_false_of_eq_true hcset)).trans ((if_neg (not_or.2 ⟨hpos.ne', Nat.not_lt.2 hn⟩)).trans
    (if_pos (h.imp_left (valueTooWide_iff hpos).2)))

/-- The state as the loop of `CSET` ends (44_chunked.md R148). -/
def State.scatterField (s : State) (width n indent : Nat) : State :=
  scatter s (indent % s.cap) width s.cvalueOperand (chunkForBit s.cap n indent + 1)

theorem exec_cset_eq_ok (hcset : s.params.hasCset = true) (hpos : 0 < width) (hn : n ≤ s.params.nchunk)
    (hfit : s.cvalueOperand < 2 ^ width) (hspan : indent + width ≤ n * s.cap) (hwidth : width ≤ s.rcap) :
    exec (.cset width n indent) s = (s.scatterField width n indent).ret .done := by
  have hok : ¬ (valueTooWide s.cvalueOperand width ∨ s.spanPastArray n indent width ∨ s.widerThanDestination width) :=
    not_or.2 ⟨mt (valueTooWide_iff hpos).1 (Nat.not_le.2 hfit),
      not_or.2 ⟨Nat.not_lt.2 hspan, Nat.not_lt.2 hwidth⟩⟩
  exact (if_neg (ne_false_of_eq_true hcset)).trans
    ((if_neg (not_or.2 ⟨hpos.ne', Nat.not_lt.2 hn⟩)).trans (if_neg hok))

theorem State.scatterField_accesses (hpos : 0 < width) (hspan : indent + width ≤ n * s.cap) :
    (s.scatterField width n indent).accesses =
      s.accesses ++ rewritesDown (s.scatterField width n indent).ch (chunkForBit s.cap n indent)
        ((indent % s.cap + width + s.cap - 1) / s.cap) := by
  have haligned := chunkForBit_aligned s.cap_pos (g := indent) (n := n) (by omega)
  have hmod := Nat.mod_lt indent s.cap_pos
  exact scatter_accesses hmod.le hpos (by rw [Nat.succ_mul]; omega)

/-- Chunks of a higher index than the field's first one and of a lower index than its last one are left as they were. -/
theorem State.scatterField_at_of_outside {j : Nat} (hpos : 0 < width) (hspan : indent + width ≤ n * s.cap)
    (hj : chunkForBit s.cap n indent < j ∨ j < chunkForBit s.cap n (indent + width - 1)) :
    (s.scatterField width n indent).ch.at j = s.ch.at j := by
  rcases hj with habove | hbelow
  · exact scatter_at_of_le habove
  · have hk : j ≤ chunkForBit s.cap n indent :=
      hbelow.le.trans (Nat.sub_le_sub_left (Nat.div_le_div_right (by omega)) _)
    have hlast := lt_mul_of_lt_chunkForBit s.cap_pos hbelow
    have hdist := mul_sub_chunkForBit (g := indent) (n := n) (by omega) hk
    have hmod := Nat.mod_lt indent s.cap_pos
    exact scatter_at_of_past_field hmod.le (by rw [Nat.add_sub_cancel]; omega)

theorem State.testBit_scatterField {j b : Nat} (hg : indent < n * s.cap) (hj : j < n) (hb : b < s.cap) :
    ((s.scatterField width n indent).chunk j).testBit b =
      if indent ≤ (n - 1 - j) * s.cap + b ∧ (n - 1 - j) * s.cap + b < indent + width then
        s.cvalueOperand.testBit ((n - 1 - j) * s.cap + b - indent)
      else (s.chunk j).testBit b := by
  rcases Nat.lt_or_ge (chunkForBit s.cap n indent) j with habove | hk
  · have hbefore := mul_add_lt_of_chunkForBit_lt hg habove hj hb
    rw [State.scatterField, State.chunk_congr scatter_params (scatter_at_of_le habove), if_neg (by omega)]
  · have hmod := Nat.mod_lt indent s.cap_pos
    have hdist := mul_sub_chunkForBit hg hk
    rw [State.scatterField, testBit_scatter hmod.le (Nat.lt_add_one_of_le hk) hb, Nat.add_sub_cancel]
    refine if_ctx_congr (by omega) (fun hin => ?_) fun _ => rfl
    congr 1
    omega

end

/-- Settles O45: the four ends of `CSET`; the loop's accesses, and its effect chunk by chunk and bit by bit. -/
theorem csetReplacesTheChunkedField : Obligations.CsetReplacesTheChunkedField := by
  unfold Obligations.CsetReplacesTheChunkedField
  intro width n indent
  refine ⟨fun _ _ => decode_eq_ok_cset_iff, fun s => ⟨exec_cset_of_not_hasCset, exec_cset_of_bad_operand,
    exec_cset_of_overflow, fun hcset hpos hn hfit hspan hwidth => ?_⟩⟩
  have hframe : sameOutsideMemory s (s.scatterField width n indent) := (scatter_frame _ _ _ _ _).1
  have hg : indent < n * s.cap := (Nat.lt_add_of_pos_right hpos).trans_le hspan
  refine ⟨_, exec_cset_eq_ok hcset hpos hn hfit hspan hwidth,
    answer_eq_of_sameOutsideMemory hframe (State.scatterField_accesses hpos hspan) _, ?seed,
    fun j => State.scatterField_at_of_outside hpos hspan, fun j b hj hb => State.testBit_scatterField hg hj hb⟩
  obtain ⟨-, -, -, -, -, hseed⟩ := hframe
  exact hseed

end Sys2Proof.Machine

/-! A status other than `OK` (60_exceptions.md R167): an operation that goes through the chunk memory answers with a
payload, so a command that fails has done nothing but answer. -/

namespace Sys2Proof.Machine

theorem sameOutsideMemory_of_readsBelow {k : Nat} {s t : State} (h : readsBelow k s t) : sameOutsideMemory s t := by
  obtain ⟨js, -, rfl⟩ := h
  exact ⟨rfl, rfl, rfl, rfl, rfl, rfl⟩

/-- Every instruction either only answers, or answers `OK` having changed only the memory and the access note. -/
theorem exec_answers_or_ok {i : Instr} {s t : State} (h : exec i s = .next t) :
    (∃ r, t = s.answer r) ∨ ∃ u p, sameOutsideMemory s u ∧ t = u.answer (.ok p) := by
  cases hi : i.accessesMemory with
  | false =>
    obtain ⟨r, hr⟩ := exec_answers_of_not_accessesMemory hi s
    exact .inl ⟨r, (Outcome.next_inj _ _).1 (h.symm.trans hr)⟩
  | true =>
    cases i with
    | cget width n indent =>
      obtain ⟨k, ht⟩ | ⟨-, u, v, hu, ht⟩ := execCget_cases h
      · exact .inl ⟨_, ht⟩
      · exact .inr ⟨u, _, sameOutsideMemory_of_readsBelow hu, ht⟩
    | cset width n indent =>
      obtain ⟨k, ht⟩ | ⟨-, -, ht⟩ := execCset_cases h
      · exact .inl ⟨_, ht⟩
      · exact .inr ⟨_, _, (scatter_frame _ _ _ _ _).1, ht⟩
    | cstr n =>
      obtain ⟨k, ht⟩ | ⟨-, u, cs, hu, ht⟩ := execCstr_cases h
      · exact .inl ⟨_, ht⟩
      · exact .inr ⟨u, _, sameOutsideMemory_of_readsBelow hu, ht⟩
    | bsize | get | set | getb | setb | idx | str | cloc => cases hi

/-- `exec_answers_or_ok` for whole commands: a word that decodes to nothing is only answered, too. -/
theorem runCommand_answers_or_ok {c : Command} {s t : State} (h : runCommand c s = .next t) :
    (∃ r, t = (s.accept c).answer r) ∨ ∃ u p, sameOutsideMemory (s.accept c) u ∧ t = u.answer (.ok p) := by
  cases hdecode : decode s.params.hasCset c.ctl with
  | ok i => exact exec_answers_or_ok ((runCommand_eq_exec hdecode).symm.trans h)
  | error e => exact .inl ⟨_, State.eq_of_raise_eq_next ((runCommand_eq_raise hdecode).symm.trans h)⟩

/-- Settles O17: a command either only answers, which is the claim, or its response is `OK`. -/
theorem errorHasNoEffect : Obligations.ErrorHasNoEffect := by
  unfold Obligations.ErrorHasNoEffect
  intro c s t r hrun hresp hstatus
  obtain ⟨r', rfl⟩ | ⟨u, p, ⟨-, -, hu, -⟩, rfl⟩ := runCommand_answers_or_ok hrun
  · obtain rfl : r' = r := by simpa using hresp
    refine ⟨rfl, ?_⟩
    rintro p rfl
    exact hstatus rfl
  · obtain rfl : .ok p = r := by simpa [hu] using hresp
    exact absurd rfl hstatus

end Sys2Proof.Machine

/-! The decoder and the encoder undo each other (30_encoding.md R61, R71), and words written out field by field. -/

namespace Sys2Proof

/-- Every control field of a well-formed instruction has its place in the control word (30_encoding.md R61). -/
theorem Instr.wellFormed_iff_fields_lt {i : Instr} :
    i.WellFormed ↔ i.fields.width < 2 ^ 7 ∧ i.fields.n < 2 ^ 7 ∧ i.fields.indent < 2 ^ 14 := by
  cases i <;> simp [Instr.WellFormed, Instr.wellFormed, Instr.fields, and_assoc]

theorem Instr.fields_op_lt (i : Instr) : i.fields.op < 2 ^ 4 := by
  cases i <;> simp [Instr.fields]

/-- The control word of an instruction holds the fields of the instruction and nothing else (30_encoding.md R61). -/
theorem ctlFields_encode {i : Instr} (h : i.WellFormed) : ctlFields (encode i) = i.fields := by
  obtain ⟨hwidth, hn, hindent⟩ := Instr.wellFormed_iff_fields_lt.1 h
  exact Laws.ctlFields_packCtl i.fields_op_lt hwidth hn hindent

theorem decode_encode {hasCset : Bool} {i : Instr} (h : i.WellFormed) (hpresent : i.present hasCset = true) :
    decode hasCset (encode i) = .ok i :=
  decode_eq_ok_iff.2 ⟨hpresent, ctlFields_encode h⟩

/-- Settles O1: the fields are read back whole, and the decoder answers the instruction whose fields they are. -/
theorem decodeOfEncode : Obligations.DecodeOfEncode := by
  unfold Obligations.DecodeOfEncode
  exact fun _ _ => decode_encode

/-- Settles O2: the fields of the word are those of the instruction, so they are inside their widths and pack to the
word. -/
theorem encodeOfDecode : Obligations.EncodeOfDecode := by
  unfold Obligations.EncodeOfDecode
  intro hasCset w i hdecode
  obtain ⟨hpresent, hfields⟩ := decode_eq_ok_iff.1 hdecode
  obtain ⟨-, hlt⟩ := ctlFields_lt w
  refine ⟨Instr.wellFormed_iff_fields_lt.2 (hfields ▸ hlt), hpresent, ?_⟩
  rw [encode, ← hfields, packCtl_ctlFields]

/-- Settles O6: each word is decoded by evaluation. -/
theorem writtenOutWordsDecode : Obligations.WrittenOutWordsDecode := by
  unfold Obligations.WrittenOutWordsDecode
  exact ⟨rfl, rfl, rfl, rfl, rfl, rfl⟩

end Sys2Proof

/-! How a host writes a command down (30_encoding.md R66, R75, R77). -/

namespace Sys2Proof

/-- Every capacity divides `2^14`, which is why 14 bits of an integer are enough (30_encoding.md R77). -/
theorem Capacity.bits_dvd_two_pow (c : Capacity) : c.bits ∣ 2 ^ 14 := by
  cases c <;> decide

namespace Machine

theorem cast_hostIndent (k : Int) : (hostIndent k : Int) = k % 2 ^ 14 :=
  Int.toNat_of_nonneg (Int.emod_nonneg k (by decide))

theorem hostIndent_lt (k : Int) : hostIndent k < 2 ^ 14 := by
  have hlt : k % 2 ^ 14 < 2 ^ 14 := Int.emod_lt_of_pos k (by decide)
  rw [← cast_hostIndent] at hlt
  exact_mod_cast hlt

/-- Settles O7: the residue modulo `2^14` has the residue of the integer modulo every divisor of `2^14`. -/
theorem hostIntegerIndentLosesNothing : Obligations.HostIntegerIndentLosesNothing := by
  unfold Obligations.HostIntegerIndentLosesNothing
  intro k p
  refine ⟨hostIndent_lt k, ?residue, fun hnonneg hlt => ?inRange⟩
  case residue =>
    have hdvd : (p.capacity.bits : Int) ∣ 2 ^ 14 := by exact_mod_cast p.capacity.bits_dvd_two_pow
    rw [← Int.emod_emod_of_dvd k hdvd, ← cast_hostIndent]
    rfl
  case inRange =>
    rw [cast_hostIndent, Int.emod_eq_of_lt hnonneg hlt]

/-- A number that fits its lane stays in it as a word. -/
theorem toWord_toNat_lt {c : Capacity} {a : Nat} (h : a < 2 ^ c.bits) : (toWord a).toNat < 2 ^ c.bits := by
  rwa [toWord_toNat_of_lt_capacity h]

/-- Settles O8: the checks of the assembler bound every operand and every control field, and for `SETB` the field `n` is
the length of the sequence. -/
theorem assembledCommandsArePresentable : Obligations.AssembledCommandsArePresentable := by
  unfold Obligations.AssembledCommandsArePresentable
  intro p a c hop hassemble
  simp only [assemble, Option.ite_none_right_eq_some, Option.some.injEq] at hassemble
  obtain ⟨⟨-, -, hwidth, hn, -, hbits, hvalue, hcvalue, hseq⟩, rfl⟩ := hassemble
  generalize hlength : (if a.op = 5 then a.sequence.length else a.number .n) = n at hn ⊢
  have hfields := Laws.ctlFields_packCtl (f := ⟨a.op, a.number .width, n, hostIndent (a.number .indent)⟩) hop hwidth hn
    (hostIndent_lt (a.number .indent))
  simp only [Command.presentable, Bool.and_eq_true, Bool.or_eq_true, decide_eq_true_eq, List.all_eq_true,
    List.forall_mem_map, List.length_map, hfields]
  refine ⟨⟨⟨⟨toWord_toNat_lt hbits, toWord_toNat_lt hvalue⟩, toWord_toNat_lt hcvalue⟩,
    fun v hv => toWord_toNat_lt (hseq v hv)⟩, ?_⟩
  by_cases hsetb : a.op = 5
  · exact .inr ((if_pos hsetb).symm.trans hlength)
  · exact .inl hsetb

end Machine

end Sys2Proof


/-! The width and mask primitives (40_primitives.md R90, R95) and `ChunkForBit` (44_chunked.md R140). -/

namespace Sys2Proof.Machine

theorem bitSize_two_pow (k : Nat) : bitSize (2 ^ k) = k + 1 := by
  rw [bitSize_of_pos (Nat.two_pow_pos k), Nat.log2_two_pow]

theorem bitSize_two_pow_sub_one {k : Nat} (hk : 1 ≤ k) : bitSize (2 ^ k - 1) = k := by
  have hlt : 2 ^ k - 1 < 2 ^ k := Nat.sub_one_lt (Nat.two_pow_pos k).ne'
  refine Nat.le_antisymm ((bitSize_le_iff hk).2 hlt) (Nat.le_of_not_lt fun hless => ?_)
  have hsmall : 2 ^ k - 1 < 2 ^ (k - 1) := (lt_two_pow_bitSize _).trans_le (Nat.pow_le_pow_right (by decide) (by omega))
  have hdouble := Nat.two_pow_pred_add_two_pow_pred hk
  have hone := Nat.two_pow_pos (k - 1)
  omega

/-- Settles O28: the definition by `log2`, and the rest from the width being minimal. -/
theorem bitSizeIsTheMinimalWidth : Obligations.BitSizeIsTheMinimalWidth := by
  unfold Obligations.BitSizeIsTheMinimalWidth
  exact ⟨rfl, fun v hv => ⟨two_pow_bitSize_sub_one_le hv, lt_two_pow_bitSize v⟩, bitSize_two_pow 0, bitSize_two_pow,
    fun _ => bitSize_two_pow_sub_one, fun _ _ => bitSize_le_iff,
    fun C v hC hv => ⟨bitSize_pos v, (bitSize_le_iff hC).2 hv⟩⟩

theorem fieldMask_eq (i w : Nat) : fieldMask i w = 2 ^ (i + w) - 2 ^ i := by
  rw [fieldMask, lowMask, Nat.shiftLeft_eq, Nat.sub_mul, Nat.one_mul, ← Nat.pow_add, Nat.add_comm]

/-- The formula of 40_primitives.md R95. -/
theorem insertField_eq (C b i w v : Nat) : insertField C b i w v =
    (b &&& (2 ^ C - 1 - (2 ^ (i + w) - 2 ^ i))) ||| ((v * 2 ^ i) &&& (2 ^ (i + w) - 2 ^ i)) := by
  rw [insertField, complBits, fieldMask_eq, Nat.shiftLeft_eq]

/-- A value that fits its field is set there uncut. -/
theorem insertField_of_lt (C b i : Nat) {w v : Nat} (hv : v < 2 ^ w) :
    insertField C b i w v = (b &&& (2 ^ C - 1 - (2 ^ (i + w) - 2 ^ i))) ||| (v * 2 ^ i) := by
  have huncut : (v <<< i) &&& fieldMask i w = v <<< i := by
    rw [fieldMask, ← Nat.shiftLeft_and_distrib, lowMask, Nat.and_two_pow_sub_one_of_lt_two_pow hv]
  rw [insertField_eq, ← fieldMask_eq, ← Nat.shiftLeft_eq, huncut]

section

variable {C b i w : Nat} (v : Nat)

/-- Only the low `w` bits of the value count (40_primitives.md R95). -/
theorem insertField_mod_two_pow (hb : b < 2 ^ C) (h : i + w ≤ C) :
    insertField C b i w v = insertField C b i w (v % 2 ^ w) := by
  refine Nat.eq_of_testBit_eq fun t => ?_
  rw [testBit_insertField v hb h, testBit_insertField _ hb h]
  refine if_ctx_congr Iff.rfl (fun hin => ?_) fun _ => rfl
  rw [Nat.testBit_mod_two_pow, decide_eq_true (by omega), Bool.true_and]

/-- The bits outside the field are the word's (40_primitives.md R95). -/
theorem insertField_and_complBits (hb : b < 2 ^ C) (h : i + w ≤ C) :
    insertField C b i w v &&& complBits C (fieldMask i w) = b &&& complBits C (fieldMask i w) := by
  refine Nat.eq_of_testBit_eq fun t => ?_
  rw [Nat.testBit_and, Nat.testBit_and, testBit_insertField v hb h, testBit_complBits (fieldMask_lt h),
    testBit_fieldMask]
  split_ifs with hin
  · simp [hin]
  · rfl

/-- Putting back what the field holds changes nothing (40_primitives.md R95). -/
theorem insertField_extractField (hb : b < 2 ^ C) (h : i + w ≤ C) :
    insertField C b i w (extractField b i w) = b := by
  refine Nat.eq_of_testBit_eq fun t => ?_
  rw [testBit_insertField _ hb h, testBit_extractField]
  split_ifs with hin
  · rw [decide_eq_true (by omega), Bool.true_and, Nat.add_sub_cancel' hin.1]
  · rfl

/-- A field apart from the one replaced holds what it held (40_primitives.md R95). -/
theorem extractField_insertField_of_disjoint {i' w' : Nat} (hb : b < 2 ^ C) (h : i + w ≤ C)
    (hdisjoint : i' + w' ≤ i ∨ i + w ≤ i') :
    extractField (insertField C b i w v) i' w' = extractField b i' w' := by
  refine Nat.eq_of_testBit_eq fun t => ?_
  rw [testBit_extractField, testBit_extractField, testBit_insertField v hb h]
  by_cases ht : t < w'
  · rw [if_neg (by omega)]
  · rw [decide_eq_false ht, Bool.false_and, Bool.false_and]

end

/-- Settles O29: the formula as the model has it, and each law bit by bit. -/
theorem insertReplacesExactlyTheField : Obligations.InsertReplacesExactlyTheField := by
  unfold Obligations.InsertReplacesExactlyTheField
  intro C b i w v hb h
  rw [← fieldMask_eq]
  refine ⟨?formula, insertField_lt v hb h, insertField_mod_two_pow v hb h, extractField_insertField v hb h,
    insertField_and_complBits v hb h, insertField_insertField v hb h, insertField_extractField hb h,
    insertField_full v hb⟩
  case formula => rw [fieldMask_eq, insertField_eq]

/-- Settles O30: an array of `n` chunks holds bit `g`, so `g / C` chunks stand after the one that holds it. -/
theorem chunkForBitCountsFromTheLastElement : Obligations.ChunkForBitCountsFromTheLastElement := by
  unfold Obligations.ChunkForBitCountsFromTheLastElement
  intro p n g hg
  have hC : 0 < p.capacity.bits := p.capacity.bits_pos
  have hall : (n - 1) * p.capacity.bits ≤ n * p.capacity.bits - 1 := by
    rw [Nat.sub_mul]
    omega
  refine ⟨Nat.eq_sub_of_add_eq (chunkForBit_add_div hg), chunkForBit_lt Nat.one_ne_zero hg, ?first, ?topOfFirst,
    ?second, ?last⟩
  case first => rw [chunkForBit, Nat.zero_div, Nat.sub_zero]
  case topOfFirst => rw [chunkForBit, Nat.div_eq_of_lt (Nat.sub_one_lt hC.ne'), Nat.sub_zero]
  case second => rw [chunkForBit, Nat.div_self hC, Nat.sub_sub]
  case last => exact Nat.sub_eq_zero_of_le ((Nat.le_div_iff_mul_le hC).2 hall)

/-! `SET`, `GETB` and `SETB` one after the other (42_bulk.md R122, 70_reset_and_hazards.md R198), and `indent` as they
use it (30_encoding.md R65). -/

/-- Settles O35: the second `Insert` is apart from the first field, and is read back itself. -/
theorem chainedSetsKeepEarlierFields : Obligations.ChainedSetsKeepEarlierFields := by
  unfold Obligations.ChainedSetsKeepEarlierFields
  intro w₁ i₁ w₂ i₂ s s' hpos₁ hpos₂ hfit₁ hfit₂ hp hspan₁ hspan₂ hdisjoint
  have hcap : s'.cap = s.cap := State.cap_congr hp
  obtain ⟨r₁, hset₁, hr₁⟩ := exec_set_eq_ok (indent := i₁) hpos₁ hfit₁ hspan₁
  refine ⟨r₁, hset₁, fun hbits => ?_⟩
  obtain ⟨r₂, hset₂, hr₂⟩ := exec_set_eq_ok (s := s') (indent := i₂) hpos₂ hfit₂ (hcap ▸ hspan₂)
  have hlt₁ := insertField_lt s.valueOperand s.bitsOperand_lt hspan₁
  rw [State.bitsOperand_of_port_bits (hbits ▸ hr₁) (hcap ▸ hlt₁), hcap] at hr₂
  refine ⟨r₂, hset₂, ?_⟩
  rw [hr₂, ← extractField_eq, ← extractField_eq]
  constructor
  · rw [extractField_insertField_of_disjoint _ hlt₁ hspan₂ hdisjoint,
      extractField_insertField _ s.bitsOperand_lt hspan₁, Nat.mod_eq_of_lt hfit₁]
  · rw [extractField_insertField _ hlt₁ hspan₂, Nat.mod_eq_of_lt hfit₂]

/-- Settles O36: these operations read `indent` through `wordIndent` alone. -/
theorem wordIndentWrapsModuloCapacity : Obligations.WordIndentWrapsModuloCapacity := by
  unfold Obligations.WordIndentWrapsModuloCapacity
  intro width n indent indent' s h
  have hword : s.wordIndent indent = s.wordIndent indent' := h
  simp only [exec, execGet, execSet, execGetb, execSetb, hword, and_self]

/-- A bulk insertion leaves the bits below its first field alone. -/
theorem extractField_putFields_of_below {C b i w i' w' : Nat} {vs : List Nat} (hb : b < 2 ^ C)
    (h : i + vs.length * w ≤ C) (hbelow : i' + w' ≤ i) :
    extractField (putFields C w b i vs) i' w' = extractField b i' w' := by
  induction vs generalizing b i with
  | nil => rfl
  | cons v vs ih =>
    rw [List.length_cons, Nat.succ_mul] at h
    have hspan : i + w ≤ C := by omega
    rw [putFields, ih (insertField_lt v hb hspan) (by omega) (by omega),
      extractField_insertField_of_disjoint v hb hspan (.inl hbelow)]

theorem getFields_succ (b i w n : Nat) :
    getFields b i w (n + 1) = extractField b i w :: getFields b (i + w) w n := by
  simp [getFields, List.range_succ_eq_map, Function.comp_def, Nat.succ_mul, Nat.add_assoc, Nat.add_comm w]

/-- The bulk read gives back what the bulk insertion put in (42_bulk.md R122). -/
theorem getFields_putFields {C b i w : Nat} {vs : List Nat} (hb : b < 2 ^ C) (h : i + vs.length * w ≤ C)
    (hfit : ∀ v ∈ vs, v < 2 ^ w) : getFields (putFields C w b i vs) i w vs.length = vs := by
  induction vs generalizing b i with
  | nil => rfl
  | cons v vs ih =>
    rw [List.length_cons, Nat.succ_mul] at h
    have hspan : i + w ≤ C := by omega
    obtain ⟨hv, hvs⟩ := List.forall_mem_cons.1 hfit
    have hlt := insertField_lt v hb hspan
    rw [List.length_cons, getFields_succ, putFields, ih hlt (by omega) hvs,
      extractField_putFields_of_below hlt (by omega) le_rfl, extractField_insertField v hb hspan, Nat.mod_eq_of_lt hv]

/-- The bulk insertion of what the bulk read gives changes nothing (42_bulk.md R122). -/
theorem putFields_getFields {C b i w n : Nat} (hb : b < 2 ^ C) (h : i + n * w ≤ C) :
    putFields C w b i (getFields b i w n) = b := by
  induction n generalizing i with
  | zero => rfl
  | succ n ih =>
    rw [Nat.succ_mul] at h
    rw [getFields_succ, putFields, insertField_extractField hb (by omega), ih (by omega)]

theorem lt_two_pow_of_mem_getFields {b i w n v : Nat} (hv : v ∈ getFields b i w n) : v < 2 ^ w := by
  obtain ⟨k, -, rfl⟩ := List.mem_map.1 hv
  exact extractField_lt _ _ _

/-- A sequence of numbers that fit their lanes comes through the lanes as it is. -/
theorem State.seqOperand_of_port_seq {s : State} {vs : List Nat} (h : s.port.seq.map BitVec.toNat = vs)
    (hfit : ∀ v ∈ vs, v < 2 ^ s.cap) : s.seqOperand vs.length = vs := by
  refine List.ext_getElem (s.length_seqOperand _) fun k hk hk' => ?_
  subst h
  rw [List.length_map] at hk'
  have hlane : s.seqLane k = truncBits s.cap s.port.seq[k].toNat := by
    rw [State.seqLane, List.getD_eq_getElem _ _ hk']
  have hlt : s.port.seq[k].toNat < 2 ^ s.cap := hfit _ (List.mem_map_of_mem (List.getElem_mem hk'))
  simp only [State.seqOperand, List.getElem_map, List.getElem_range, hlane, truncBits_of_lt hlt]

/-- Settles O39: the two round trips of the loops, the host passing a word or a sequence on; and `SETB` of one element
meets the checks of `SET` in the other order, both with the same error. -/
theorem bulkRoundTrips : Obligations.BulkRoundTrips := by
  unfold Obligations.BulkRoundTrips
  refine ⟨fun width n indent s hpos hspan hfit => ?read, fun width n indent s hpos hspan => ?write,
    fun width indent s hseq => ?single⟩
  case read =>
    obtain ⟨r, hsetb, hr⟩ := exec_setb_eq_ok hpos hspan hfit
    refine ⟨r, hsetb, fun s' hp hbits => ?_⟩
    have hcap : s'.cap = s.cap := State.cap_congr hp
    obtain ⟨vs, hgetb, hvs⟩ := exec_getb_eq_ok (s := s') (n := n) (indent := indent) hpos (hcap ▸ hspan)
    have hlen : indent % s.cap + (s.seqOperand n).length * width ≤ s.cap := by rwa [s.length_seqOperand]
    have hlt := putFields_lt s.bitsOperand_lt hlen
    rw [State.bitsOperand_of_port_bits (hbits ▸ hr) (hcap ▸ hlt), hcap] at hvs
    have hread := getFields_putFields s.bitsOperand_lt hlen (by simpa [State.seqOperand] using hfit)
    rw [s.length_seqOperand] at hread
    exact ⟨vs, hgetb, hvs.trans hread⟩
  case write =>
    obtain ⟨vs, hgetb, hvs⟩ := exec_getb_eq_ok (s := s) (n := n) hpos hspan
    refine ⟨vs, hgetb, fun s' hp hbits hseq => ?_⟩
    have hcap : s'.cap = s.cap := State.cap_congr hp
    have hbits' : s'.bitsOperand = s.bitsOperand := by rw [State.bitsOperand, State.bitsOperand, hcap, hbits]
    have hseq' : s'.seqOperand n = getFields s.bitsOperand (indent % s.cap) width n := by
      have hlanes := State.seqOperand_of_port_seq (s := s') (hseq ▸ hvs)
        fun v hv => hcap ▸ lt_of_mem_getFields s.bitsOperand_lt hv
      rwa [length_getFields] at hlanes
    have hfit (k : Nat) (hk : k < n) : s'.seqLane k < 2 ^ width := by
      have hmem : s'.seqLane k ∈ s'.seqOperand n := List.mem_map_of_mem (List.mem_range.2 hk)
      exact lt_two_pow_of_mem_getFields (hseq' ▸ hmem)
    obtain ⟨r, hsetb, hr⟩ := exec_setb_eq_ok (s := s') (indent := indent) hpos (hcap ▸ hspan) hfit
    rw [hcap, hbits', hseq', putFields_getFields s.bitsOperand_lt hspan] at hr
    exact ⟨r, hsetb, hr⟩
  case single =>
    have hlane : s.seqLane 0 = s.valueOperand := by
      rw [State.seqLane, hseq, List.getD_cons_zero, State.valueOperand]
    have hone : s.seqOperand 1 = [s.valueOperand] := by rw [← hlane]; rfl
    rcases Nat.eq_zero_or_pos width with hzero | hpos
    · rw [exec_setb_of_width_eq_zero hzero, exec_set_of_width_eq_zero hzero]
    · rcases Nat.lt_or_ge s.cap (indent % s.cap + width) with hpast | hspan
      · rw [exec_setb_of_overflow hpos (.inl (by rwa [Nat.one_mul])), exec_set_of_overflow hpos (.inr hpast)]
      · rcases Nat.lt_or_ge s.valueOperand (2 ^ width) with hfit | hwide
        · obtain ⟨r, hset, hr⟩ := exec_set_eq_ok hpos hfit hspan
          obtain ⟨r', hsetb, hr'⟩ := exec_setb_eq_ok (n := 1) hpos (by rwa [Nat.one_mul])
            fun k hk => by rwa [Nat.lt_one_iff.1 hk, hlane]
          rw [hone] at hr'
          rw [hset, hsetb, BitVec.eq_of_toNat_eq (hr'.trans hr.symm)]
        · rw [exec_setb_of_overflow hpos (.inr ⟨0, Nat.one_pos, by rwa [hlane]⟩),
            exec_set_of_overflow hpos (.inl hwide)]

end Sys2Proof.Machine


/-! The global vector of an array of chunks (10_state.md R30, 44_chunked.md R141), and the renderings as numerals
(43_search_render.md R131, 44_chunked.md R149). -/

namespace Sys2Proof.Machine

@[simp] theorem State.vec_zero (s : State) : s.vec 0 = 0 := rfl

/-- One chunk more stands below the others. -/
theorem State.vec_succ (s : State) (n : Nat) : s.vec (n + 1) = 2 ^ s.cap * s.vec n + s.chunk n := by
  have hshift (j : Nat) (hj : j ∈ List.range n) :
      s.chunk j * 2 ^ ((n + 1 - 1 - j) * s.cap) = 2 ^ s.cap * (s.chunk j * 2 ^ ((n - 1 - j) * s.cap)) := by
    have hplace : n + 1 - 1 - j = n - 1 - j + 1 := by
      have := List.mem_range.1 hj
      omega
    rw [hplace, Nat.succ_mul, Nat.pow_add]
    ring
  rw [State.vec, List.range_succ, List.map_append, List.sum_append, List.map_congr_left hshift, List.sum_map_mul_left,
    ← State.vec]
  simp

/-- Bit `g` of the array is bit `g` of its vector; above the array there is no bit (44_chunked.md R141). -/
theorem State.testBit_vec (s : State) (n g : Nat) :
    (s.vec n).testBit g = (decide (g < n * s.cap) && s.arrayBit n g) := by
  induction n generalizing g with
  | zero => simp
  | succ n ih =>
    rw [State.vec_succ, Nat.testBit_two_pow_mul_add _ (s.chunk_lt n), Nat.succ_mul]
    split
    · next hlow =>
      have hbit := s.arrayBit_eq_testBit_chunk n.lt_add_one hlow
      rw [Nat.add_sub_cancel, Nat.sub_self, Nat.zero_mul, Nat.zero_add] at hbit
      rw [hbit, decide_eq_true (by omega), Bool.true_and]
    · next hhigh =>
      have hdiv : g / s.cap = (g - s.cap) / s.cap + 1 := by
        rw [← Nat.add_div_right _ s.cap_pos, Nat.sub_add_cancel (Nat.not_lt.1 hhigh)]
      have hbit : s.arrayBit (n + 1) g = s.arrayBit n (g - s.cap) := by
        have hindex : chunkForBit s.cap (n + 1) g = chunkForBit s.cap n (g - s.cap) := by
          rw [chunkForBit, chunkForBit, hdiv]
          omega
        rw [State.arrayBit, State.arrayBit, hindex, ← Nat.mod_eq_sub_mod (Nat.not_lt.1 hhigh)]
      rw [ih, hbit, decide_eq_decide.2 (by omega : g - s.cap < n * s.cap ↔ g < n * s.cap + s.cap)]

theorem State.testBit_vec_of_lt {s : State} {n g : Nat} (hg : g < n * s.cap) :
    (s.vec n).testBit g = s.arrayBit n g := by
  rw [State.testBit_vec, decide_eq_true hg, Bool.true_and]

theorem State.vec_lt (s : State) (n : Nat) : s.vec n < 2 ^ (n * s.cap) := by
  refine Nat.lt_pow_two_of_testBit _ fun g hg => ?_
  rw [State.testBit_vec, decide_eq_false (Nat.not_lt.2 hg), Bool.false_and]

/-- Two machines of one build with the same array have the same vector. -/
theorem State.vec_congr {s s' : State} {n : Nat} (hp : s'.params = s.params)
    (h : ∀ j, j < n → s'.chunk j = s.chunk j) : s'.vec n = s.vec n := by
  rw [State.vec, State.vec, State.cap_congr hp]
  exact congrArg List.sum (List.map_congr_left fun j hj => by rw [h j (List.mem_range.1 hj)])

/-- Symbols that follow shift those before them up. -/
theorem numeral_append (cs ds : List Symbol) : numeral (cs ++ ds) = 2 ^ ds.length * numeral cs + numeral ds := by
  induction ds using List.reverseRecOn with
  | nil => simp [numeral]
  | append_singleton ds d ih =>
    simp only [numeral, List.foldl_append, List.foldl_cons, List.foldl_nil] at ih ⊢
    rw [ih, List.length_append, List.length_singleton, Nat.pow_succ]
    ring

/-- The bits of a word but its last one are the bits of its half. -/
theorem render_succ (C b : Nat) : render (C + 1) b = render C (b / 2) ++ [symbolOfBit (b.testBit 0)] := by
  rw [render, List.range_succ, List.map_append, render]
  congr 1
  · refine List.map_congr_left fun p hp => ?_
    have hplace : C + 1 - 1 - p = C - 1 - p + 1 := by
      have := List.mem_range.1 hp
      omega
    rw [hplace, Nat.testBit_succ]
  · simp

/-- Read as a numeral, the rendering of a number of `C` bits is the number (43_search_render.md R131). -/
theorem numeral_render {C b : Nat} (hb : b < 2 ^ C) : numeral (render C b) = b := by
  induction C generalizing b with
  | zero =>
    obtain rfl : b = 0 := by simpa using hb
    rfl
  | succ C ih =>
    have hbit : numeral [symbolOfBit (b.testBit 0)] = b % 2 := by
      rcases Nat.mod_two_eq_zero_or_one b with h | h <;> simp [numeral, symbolOfBit, h]
    rw [render_succ, numeral_append, ih (by omega), hbit]
    exact Nat.div_add_mod b 2

theorem State.renderArray_succ (s : State) (n : Nat) :
    s.renderArray (n + 1) = s.renderArray n ++ render s.cap (s.chunk n) := by
  simp [State.renderArray, List.range_succ]

/-- Read as a numeral, the rendering of an array is its vector (44_chunked.md R149). -/
theorem State.numeral_renderArray (s : State) (n : Nat) : numeral (s.renderArray n) = s.vec n := by
  induction n with
  | zero => rfl
  | succ n ih =>
    rw [State.renderArray_succ, numeral_append, ih, numeral_render (s.chunk_lt n), render_length, State.vec_succ]

/-- `CSTR` shows bit `g` of an array of `n` chunks at position `n * C - 1 - g` (44_chunked.md R141,
20_memory.md R43). -/
theorem State.getElem?_renderArray_of_bit {s : State} {n g : Nat} (hg : g < n * s.cap) :
    (s.renderArray n)[n * s.cap - 1 - g]? = some (if (s.vec n).testBit g then .one else .zero) := by
  have haligned := chunkForBit_aligned s.cap_pos hg
  have hmod := Nat.mod_lt g s.cap_pos
  have hposition : n * s.cap - 1 - g = chunkForBit s.cap n g * s.cap + (s.cap - 1 - g % s.cap) := by omega
  have hplace : s.cap - 1 - (s.cap - 1 - g % s.cap) = g % s.cap := by omega
  rw [hposition, s.getElem?_renderArray (chunkForBit_lt Nat.one_ne_zero hg) (by omega), hplace,
    State.testBit_vec_of_lt hg, State.arrayBit]

/-- A `CSTR` that answers a string answers the rendering of its array. -/
theorem exec_cstr_str {n : Nat} {s t : State} {cs : List Symbol} (h : exec (.cstr n) s = .next t)
    (hresponses : t.responses = s.responses ++ [.ok (.str cs)]) : cs = s.renderArray n := by
  rcases Nat.lt_or_ge s.params.nchunk n with hlong | hn
  · obtain rfl := State.eq_of_raise_eq_next ((exec_cstr_of_arrayTooLong hlong).symm.trans h)
    simp at hresponses
  · obtain rfl := State.eq_of_ret_eq_next ((exec_cstr_eq_ok hn).symm.trans h)
    simpa using hresponses.symm

/-- Settles O49: what either instruction renders is read back by `numeral`, word by word. -/
theorem renderingsReadAsNumerals : Obligations.RenderingsReadAsNumerals := by
  unfold Obligations.RenderingsReadAsNumerals
  intro s t cs hresponses
  constructor
  · intro hstr
    obtain rfl := State.eq_of_ret_eq_next hstr
    obtain rfl : render s.cap s.bitsOperand = cs := by simpa using hresponses
    exact numeral_render s.bitsOperand_lt
  · intro n hcstr
    rw [exec_cstr_str hcstr hresponses]
    exact s.numeral_renderArray n

/-- Settles O50: the vector bit by bit, and the rendering of the array symbol by symbol. -/
theorem globalBitsAndTheirRendering : Obligations.GlobalBitsAndTheirRendering := by
  unfold Obligations.GlobalBitsAndTheirRendering
  intro n g s hg
  refine ⟨State.testBit_vec_of_lt hg, fun t cs hcstr hresponses => ?_⟩
  rw [exec_cstr_str hcstr hresponses]
  exact State.getElem?_renderArray_of_bit hg

end Sys2Proof.Machine


/-! What an instruction can do, said once: it only answers, as its operands and the build alone decide, or it is `CGET`,
`CSET` or `CSTR` on an array that exists and goes through the chunk memory (44_chunked.md R143, R145, R148, R149). -/

namespace Sys2Proof.Machine

/-- `s'` is the machine `s` of the same build with the same command on the port. -/
structure State.SameCommand (s s' : State) : Prop where
  params : s'.params = s.params
  port : s'.port = s.port

/-- `CGET` succeeds (44_chunked.md R145). -/
structure State.CgetOk (s : State) (width n indent : Nat) : Prop where
  pos : 0 < width
  array : n ≤ s.params.nchunk
  span : indent + width ≤ n * s.cap
  dest : width ≤ s.rcap

/-- `CSET` succeeds (44_chunked.md R148). -/
structure State.CsetOk (s : State) (width n indent : Nat) : Prop extends s.CgetOk width n indent where
  hasCset : s.params.hasCset = true
  fits : s.cvalueOperand < 2 ^ width

theorem State.CgetOk.congr {s s' : State} {width n indent : Nat} (h : s.CgetOk width n indent)
    (hp : s'.params = s.params) : s'.CgetOk width n indent where
  pos := h.pos
  array := hp ▸ h.array
  span := State.cap_congr hp ▸ h.span
  dest := (congrArg (·.rcap.bits) hp : s'.rcap = s.rcap) ▸ h.dest

namespace State.SameCommand

variable {s s' : State}

theorem refl (s : State) : s.SameCommand s := ⟨rfl, rfl⟩

theorem cap (h : s.SameCommand s') : s'.cap = s.cap := State.cap_congr h.params

theorem rcap (h : s.SameCommand s') : s'.rcap = s.rcap := by rw [State.rcap, h.params]

theorem bitsOperand (h : s.SameCommand s') : s'.bitsOperand = s.bitsOperand := by
  rw [State.bitsOperand, State.bitsOperand, h.cap, h.port]

theorem valueOperand (h : s.SameCommand s') : s'.valueOperand = s.valueOperand :=
  State.valueOperand_congr h.params (by rw [h.port])

theorem cvalueOperand (h : s.SameCommand s') : s'.cvalueOperand = s.cvalueOperand := by
  rw [State.cvalueOperand, State.cvalueOperand, h.rcap, h.port]

theorem seqOperand (h : s.SameCommand s') (n : Nat) : s'.seqOperand n = s.seqOperand n := by
  have hlane : s'.seqLane = s.seqLane := funext fun k => by rw [State.seqLane, State.seqLane, h.cap, h.port]
  rw [State.seqOperand, State.seqOperand, hlane]

theorem wordIndent (h : s.SameCommand s') (indent : Nat) : s'.wordIndent indent = s.wordIndent indent := by
  rw [State.wordIndent, State.wordIndent, h.cap]

theorem totalBits (h : s.SameCommand s') (n : Nat) : s'.totalBits n = s.totalBits n := by
  rw [State.totalBits, State.totalBits, h.cap]

theorem cgetOk {width n indent : Nat} (h : s.SameCommand s') (hok : s.CgetOk width n indent) :
    s'.CgetOk width n indent :=
  hok.congr h.params

theorem csetOk {width n indent : Nat} (h : s.SameCommand s') (hok : s.CsetOk width n indent) :
    s'.CsetOk width n indent where
  toCgetOk := h.cgetOk hok.toCgetOk
  hasCset := h.params ▸ hok.hasCset
  fits := h.cvalueOperand ▸ hok.fits

end State.SameCommand

/-- An operation has at most one next state. -/
theorem eq_of_eq_next {o : Host.Outcome State Fault Refusal} {s t : State} (hs : o = .next s) (ht : o = .next t) :
    t = s :=
  (Outcome.next_inj t s).1 (ht.symm.trans hs)

/-- On every machine with the build and the command of `s`, the operation only answers, with `r`. -/
def OnlyAnswers (op : State → Host.Outcome State Fault Refusal) (s : State) (r : Response) : Prop :=
  ∀ s', s.SameCommand s' → op s' = .next (s'.answer r)

namespace OnlyAnswers

variable {op op' : State → Host.Outcome State Fault Refusal} {s : State}

theorem eq_next {r : Response} (h : OnlyAnswers op s r) : op s = .next (s.answer r) := h s (.refl s)

theorem eq_answer {r : Response} {t : State} (h : OnlyAnswers op s r) (ht : op s = .next t) : t = s.answer r :=
  eq_of_eq_next h.eq_next ht

theorem raise (kind : ErrorKind) : ∃ r, OnlyAnswers (·.raise kind) s r := ⟨.error kind, fun _ _ => rfl⟩

theorem ret {p : State → Payload} (hp : ∀ s', s.SameCommand s' → p s' = p s) :
    ∃ r, OnlyAnswers (fun s => s.ret (p s)) s r :=
  ⟨.ok (p s), fun s' h => congrArg s'.ret (hp s' h)⟩

/-- A check that reads only the operands and the build chooses the same branch on all these machines. -/
theorem ite {c : State → Prop} [DecidablePred c] (hc : ∀ s', s.SameCommand s' → (c s' ↔ c s))
    (hpos : ∃ r, OnlyAnswers op s r) (hneg : ∃ r, OnlyAnswers op' s r) :
    ∃ r, OnlyAnswers (fun s => if c s then op s else op' s) s r := by
  by_cases h : c s
  · obtain ⟨r, hr⟩ := hpos
    exact ⟨r, fun s' h' => (if_pos ((hc s' h').2 h)).trans (hr s' h')⟩
  · obtain ⟨r, hr⟩ := hneg
    exact ⟨r, fun s' h' => (if_neg (mt (hc s' h').1 h)).trans (hr s' h')⟩

end OnlyAnswers

open OnlyAnswers in
/-- An operation without a loop over the chunk memory does nothing but answer, and its answer is decided by its operands
and the build. -/
theorem onlyAnswers_of_not_accessesMemory {i : Instr} (hi : i.accessesMemory = false) (s : State) :
    ∃ r, OnlyAnswers (exec i) s r := by
  have hzero (width : Nat) (s' : State) (_ : s.SameCommand s') : width = 0 ↔ width = 0 := Iff.rfl
  cases i with
  | bsize => exact ret fun s' h => by rw [h.valueOperand]
  | str => exact ret fun s' h => by rw [h.cap, h.bitsOperand]
  | get width indent =>
    refine ite (hzero width) (raise _) (ite (fun s' h => ?_) (raise _) (ret fun s' h => ?_))
    · rw [State.spanPastWord, h.cap, h.wordIndent]
    · rw [h.bitsOperand, h.wordIndent]
  | set width indent =>
    refine ite (hzero width) (raise _) (ite (fun s' h => ?_) (raise _) (ret fun s' h => ?_))
    · rw [State.spanPastWord, h.cap, h.wordIndent, h.valueOperand]
    · rw [h.cap, h.bitsOperand, h.wordIndent, h.valueOperand]
  | getb width n indent =>
    refine ite (hzero width) (raise _) (ite (fun s' h => ?_) (raise _) (ret fun s' h => ?_))
    · rw [State.seqPastWord, h.cap, h.wordIndent]
    · rw [h.bitsOperand, h.wordIndent]
  | setb width n indent =>
    refine ite (hzero width) (raise _) (ite (fun s' h => ?_) (raise _)
      (ite (fun s' h => ?_) (raise _) (ret fun s' h => ?_)))
    · rw [State.seqPastWord, h.cap, h.wordIndent]
    · rw [h.seqOperand]
    · rw [h.cap, h.bitsOperand, h.wordIndent, h.seqOperand]
  | idx width =>
    refine ite (hzero width) (raise _) (ite (fun s' h => ?_) (raise _) (ret fun s' h => ?_))
    · rw [h.valueOperand]
    · rw [h.cap, h.bitsOperand, h.valueOperand]
  | cloc n indent =>
    refine ite (fun s' h => ?_) (raise _) (ite (fun s' h => ?_) (raise _) (ret fun s' h => ?_))
    · rw [State.arrayTooLong, h.params]
    · rw [State.spanPastArray, h.totalBits]
    · rw [h.cap]
  | cget | cset | cstr => cases hi

section

variable (s : State) (width n indent : Nat)

/-- `CGET` fails as the build decides, or its field is one it can read. -/
theorem onlyAnswers_error_or_cgetOk :
    (∃ k, OnlyAnswers (exec (.cget width n indent)) s (.error k)) ∨ s.CgetOk width n indent := by
  by_cases hbad : width = 0 ∨ s.params.nchunk < n
  · exact .inl ⟨.badOperand, fun s' h => exec_cget_of_bad_operand (h.params ▸ hbad)⟩
  · obtain ⟨hwidth, hn⟩ := not_or.1 hbad
    have hpos : 0 < width := Nat.pos_of_ne_zero hwidth
    by_cases hover : n * s.cap < indent + width ∨ s.rcap < width
    · refine .inl ⟨.overflowError, fun s' h => exec_cget_of_overflow hpos (h.params ▸ Nat.not_lt.1 hn) ?_⟩
      rwa [h.cap, h.rcap]
    · obtain ⟨hspan, hdest⟩ := not_or.1 hover
      exact .inr ⟨hpos, Nat.not_lt.1 hn, Nat.not_lt.1 hspan, Nat.not_lt.1 hdest⟩

/-- `CSET` fails as its operands and the build decide, or its field is one it can write. -/
theorem onlyAnswers_error_or_csetOk :
    (∃ k, OnlyAnswers (exec (.cset width n indent)) s (.error k)) ∨ s.CsetOk width n indent := by
  cases hcset : s.params.hasCset with
  | false => exact .inl ⟨.illegalOp, fun s' h => exec_cset_of_not_hasCset (h.params ▸ hcset)⟩
  | true =>
    by_cases hbad : width = 0 ∨ s.params.nchunk < n
    · exact .inl ⟨.badOperand, fun s' h => exec_cset_of_bad_operand (h.params ▸ hcset) (h.params ▸ hbad)⟩
    · obtain ⟨hwidth, hn⟩ := not_or.1 hbad
      have hpos : 0 < width := Nat.pos_of_ne_zero hwidth
      by_cases hover : 2 ^ width ≤ s.cvalueOperand ∨ n * s.cap < indent + width ∨ s.rcap < width
      · refine .inl ⟨.overflowError, fun s' h =>
          exec_cset_of_overflow (h.params ▸ hcset) hpos (h.params ▸ Nat.not_lt.1 hn) ?_⟩
        rwa [h.cap, h.rcap, h.cvalueOperand]
      · obtain ⟨hfits, hrest⟩ := not_or.1 hover
        obtain ⟨hspan, hdest⟩ := not_or.1 hrest
        exact .inr ⟨⟨hpos, Nat.not_lt.1 hn, Nat.not_lt.1 hspan, Nat.not_lt.1 hdest⟩, hcset, Nat.not_le.1 hfits⟩

/-- `CSTR` fails as the build decides, or its array exists. -/
theorem onlyAnswers_error_or_array : (∃ k, OnlyAnswers (exec (.cstr n)) s (.error k)) ∨ n ≤ s.params.nchunk := by
  rcases Nat.lt_or_ge s.params.nchunk n with hlong | hn
  · exact .inl ⟨.badOperand, fun s' h => exec_cstr_of_arrayTooLong (h.params ▸ hlong)⟩
  · exact .inr hn

end

end Sys2Proof.Machine


/-! What `CGET`, `CSET` and `CSTR` answer and leave when they succeed, on the global vector and in accesses
(44_chunked.md R146, R148, R149; 70_reset_and_hazards.md R201). -/

namespace Sys2Proof.Machine

/-- The number of chunks a field of `w` bits at bit `g` lies in (44_chunked.md R145). -/
def chunksSpanned (C g w : Nat) : Nat := (g % C + w + C - 1) / C

@[simp] theorem length_readsDown (k m : Nat) : (readsDown k m).length = m := by simp [readsDown]

@[simp] theorem length_rewritesDown (ch : Memory) (k m : Nat) : (rewritesDown ch k m).length = 2 * m := by
  simp [rewritesDown, Nat.mul_comm]

theorem sameOutsideMemory_noteAll (s : State) (as : List Access) : sameOutsideMemory s (s.noteAll as) :=
  ⟨rfl, rfl, rfl, rfl, rfl, rfl⟩

@[simp] theorem State.noteAll_ch (s : State) (as : List Access) : (s.noteAll as).ch = s.ch := rfl

@[simp] theorem State.noteAll_accesses (s : State) (as : List Access) :
    (s.noteAll as).accesses = s.accesses ++ as := rfl

@[simp] theorem State.noteAll_responses (s : State) (as : List Access) :
    (s.noteAll as).responses = s.responses := rfl

theorem sameOutsideMemory_scatterField (s : State) (width n indent : Nat) :
    sameOutsideMemory s (s.scatterField width n indent) := (scatter_frame _ _ _ _ _).1

section

variable {s : State} {width n indent : Nat}

/-- A `CGET` that succeeds reads the chunks of its span and answers the field of the global vector (44_chunked.md
R146). -/
theorem exec_cget_of_ok (h : s.CgetOk width n indent) : ∃ r : Word,
    exec (.cget width n indent) s =
      .next ((s.noteAll (readsDown (chunkForBit s.cap n indent) (chunksSpanned s.cap indent width))).answer
        (.ok (.cres r))) ∧
      r.toNat = extractField (s.vec n) indent width := by
  obtain ⟨r, hexec, hr⟩ := exec_cget_eq_ok h.pos h.array h.span h.dest
  rw [State.gatherField_snd h.pos h.span] at hexec
  refine ⟨r, hexec, hr.trans (Nat.eq_of_testBit_eq fun t => ?_)⟩
  rw [testBit_extractField, testBit_extractField, Nat.zero_add]
  by_cases ht : t < width
  · have hspan := h.span
    rw [State.testBit_gatherField_fst h.span h.dest ht, State.testBit_vec_of_lt (by omega)]
  · rw [decide_eq_false ht, Bool.false_and, Bool.false_and]

theorem exec_cget_cases {t : State} (h : exec (.cget width n indent) s = .next t) :
    (∃ k, t = s.answer (.error k)) ∨ s.CgetOk width n indent ∧ ∃ r : Word,
      t = (s.noteAll (readsDown (chunkForBit s.cap n indent) (chunksSpanned s.cap indent width))).answer
        (.ok (.cres r)) ∧
      r.toNat = extractField (s.vec n) indent width := by
  rcases onlyAnswers_error_or_cgetOk s width n indent with ⟨k, hk⟩ | hok
  · exact .inl ⟨k, hk.eq_answer h⟩
  · obtain ⟨r, hexec, hr⟩ := exec_cget_of_ok hok
    exact .inr ⟨hok, r, eq_of_eq_next hexec h, hr⟩

theorem exec_cset_of_ok (h : s.CsetOk width n indent) :
    exec (.cset width n indent) s = .next ((s.scatterField width n indent).answer (.ok .done)) :=
  exec_cset_eq_ok h.hasCset h.pos h.array h.fits h.span h.dest

theorem exec_cset_cases {t : State} (h : exec (.cset width n indent) s = .next t) :
    (∃ k, t = s.answer (.error k)) ∨
      s.CsetOk width n indent ∧ t = (s.scatterField width n indent).answer (.ok .done) := by
  rcases onlyAnswers_error_or_csetOk s width n indent with ⟨k, hk⟩ | hok
  · exact .inl ⟨k, hk.eq_answer h⟩
  · exact .inr ⟨hok, eq_of_eq_next (exec_cset_of_ok hok) h⟩

theorem exec_cstr_of_array (hn : n ≤ s.params.nchunk) :
    exec (.cstr n) s =
      .next ((s.noteAll ((List.range n).map Access.read)).answer (.ok (.str (s.renderArray n)))) :=
  exec_cstr_eq_ok hn

/-- Bit `g` of the array is at place `g mod C` of its chunk (44_chunked.md R141). -/
theorem chunkForBit_place {C g : Nat} (hC : 0 < C) (hg : g < n * C) :
    (n - 1 - chunkForBit C n g) * C + g % C = g := by
  have haligned := chunkForBit_aligned hC hg
  have hsize := sub_one_sub_mul_add_mul C (chunkForBit_lt Nat.one_ne_zero hg)
  have hmod := Nat.mod_lt g hC
  omega

/-- On the global vector, `CSET` is `Insert` (44_chunked.md R148). -/
theorem State.vec_scatterField (hpos : 0 < width) (hspan : indent + width ≤ n * s.cap) :
    (s.scatterField width n indent).vec n = insertField (n * s.cap) (s.vec n) indent width s.cvalueOperand := by
  have hparams : (s.scatterField width n indent).params = s.params := scatter_params
  refine Nat.eq_of_testBit_eq fun g => ?_
  rw [testBit_insertField _ (s.vec_lt n) hspan]
  by_cases hg : g < n * s.cap
  · rw [State.testBit_vec_of_lt (by rwa [State.cap_congr hparams]), State.testBit_vec_of_lt hg, State.arrayBit,
      State.arrayBit, State.cap_congr hparams,
      State.testBit_scatterField (by omega) (chunkForBit_lt Nat.one_ne_zero hg) (Nat.mod_lt g s.cap_pos),
      chunkForBit_place s.cap_pos hg]
  · rw [State.testBit_vec, State.testBit_vec, State.cap_congr hparams, decide_eq_false hg, Bool.false_and,
      if_neg (by omega), Bool.false_and]

end

/-- Settles O44: a `CGET` that answers a result has succeeded, and its result is the field of the vector. -/
theorem cgetIsExtractOfTheVector : Obligations.CgetIsExtractOfTheVector := by
  unfold Obligations.CgetIsExtractOfTheVector
  intro width n indent s t r hexec hresponses
  rw [← extractField_eq]
  obtain ⟨k, rfl⟩ | ⟨-, v, rfl, hv⟩ := exec_cget_cases hexec
  · simp at hresponses
  · obtain rfl : v = r := by simpa using hresponses
    exact hv

/-- Settles O46: the vector `CSET` leaves is an `Insert` into the vector it found. -/
theorem csetIsInsertIntoTheVector : Obligations.CsetIsInsertIntoTheVector := by
  unfold Obligations.CsetIsInsertIntoTheVector
  intro width n indent s t hexec hresponses
  obtain ⟨k, rfl⟩ | ⟨hok, rfl⟩ := exec_cset_cases hexec
  · simp at hresponses
  · rw [← insertField_of_lt _ _ _ hok.fits]
    exact State.vec_scatterField hok.pos hok.span

/-- Settles O47: the `CGET` extracts from the vector what the `CSET` inserted into it. -/
theorem cgetAfterCset : Obligations.CgetAfterCset := by
  unfold Obligations.CgetAfterCset
  intro width n indent s t hexec hresponses
  obtain ⟨k, rfl⟩ | ⟨hok, rfl⟩ := exec_cset_cases hexec
  · simp at hresponses
  · set t := (s.scatterField width n indent).answer (.ok .done) with ht
    have hparams : t.params = s.params := scatter_params
    have hvec : t.vec n = insertField (n * s.cap) (s.vec n) indent width s.cvalueOperand :=
      State.vec_scatterField hok.pos hok.span
    obtain ⟨r, hcget, hr⟩ := exec_cget_of_ok (hok.toCgetOk.congr hparams)
    rw [hvec, extractField_insertField _ (s.vec_lt n) hok.span, Nat.mod_eq_of_lt hok.fits] at hr
    exact ⟨_, r, hcget, rfl, rfl, hr⟩

/-- A field no wider than `R` bits lies in at most as many chunks as 70_reset_and_hazards.md R201 says. -/
theorem chunksSpanned_le {C w R : Nat} (g : Nat) (hC : 0 < C) (hw : w ≤ R) :
    chunksSpanned C g w ≤ (C - 1 + R + C - 1) / C := by
  have hmod := Nat.mod_lt g hC
  exact Nat.div_le_div_right (by omega)

/-- Settles O25: a command that fails makes no access, and one that succeeds those of its span or its array. -/
theorem chunkLoopsAreBounded : Obligations.ChunkLoopsAreBounded := by
  unfold Obligations.ChunkLoopsAreBounded
  intro width n indent s t
  refine ⟨fun hexec => ?cget, fun hexec => ?cset, fun hexec hn => ?cstr⟩
  case cget =>
    obtain ⟨k, rfl⟩ | ⟨hok, r, rfl, -⟩ := exec_cget_cases hexec
    · exact Nat.le_add_right _ _
    · have hbound := chunksSpanned_le indent s.cap_pos hok.dest
      simpa using hbound
  case cset =>
    obtain ⟨k, rfl⟩ | ⟨hok, rfl⟩ := exec_cset_cases hexec
    · exact Nat.le_add_right _ _
    · have hbound := chunksSpanned_le indent s.cap_pos hok.dest
      rw [State.answer_accesses, State.scatterField_accesses hok.pos hok.span, List.length_append,
        length_rewritesDown]
      exact Nat.add_le_add_left (Nat.mul_le_mul_left 2 hbound) _
  case cstr =>
    obtain rfl := eq_of_eq_next (exec_cstr_of_array hn) hexec
    simp

end Sys2Proof.Machine


/-! What every instruction does (10_state.md R20 to R25), and on what its answer depends (60_exceptions.md R165, R168;
70_reset_and_hazards.md R195). -/

namespace Sys2Proof.Machine

/-- The instruction is one that goes through the chunk memory, and it succeeds. -/
def State.LoopOk (s : State) : Instr → Prop
  | .cget width n indent => s.CgetOk width n indent
  | .cset width n indent => s.CsetOk width n indent
  | .cstr n => n ≤ s.params.nchunk
  | .bsize | .get _ _ | .set _ _ | .getb _ _ _ | .setb _ _ _ | .idx _ | .str | .cloc _ _ => False

/-- Every instruction either only answers, as its operands and the build decide, or goes through the chunk memory and
succeeds. -/
theorem onlyAnswers_or_loopOk (i : Instr) (s : State) : (∃ r, OnlyAnswers (exec i) s r) ∨ s.LoopOk i := by
  cases hi : i.accessesMemory with
  | false => exact .inl (onlyAnswers_of_not_accessesMemory hi s)
  | true =>
    cases i with
    | cget width n indent => exact (onlyAnswers_error_or_cgetOk s width n indent).imp_left fun ⟨k, hk⟩ => ⟨_, hk⟩
    | cset width n indent => exact (onlyAnswers_error_or_csetOk s width n indent).imp_left fun ⟨k, hk⟩ => ⟨_, hk⟩
    | cstr n => exact (onlyAnswers_error_or_array s n).imp_left fun ⟨k, hk⟩ => ⟨_, hk⟩
    | bsize | get | set | getb | setb | idx | str | cloc => cases hi

theorem State.SameCommand.loopOk {s s' : State} (h : s.SameCommand s') {i : Instr} (hok : s.LoopOk i) :
    s'.LoopOk i := by
  cases i with
  | cget width n indent => exact h.cgetOk hok
  | cset width n indent => exact h.csetOk hok
  | cstr n => exact Nat.le_trans hok (congrArg Params.nchunk h.params).ge
  | bsize | get | set | getb | setb | idx | str | cloc => exact hok.elim

theorem exec_of_loopOk {i : Instr} {s : State} (hok : s.LoopOk i) :
    ∃ u p, exec i s = .next (u.answer (.ok p)) ∧ sameOutsideMemory s u := by
  cases i with
  | cget width n indent =>
    obtain ⟨r, hexec, -⟩ := exec_cget_of_ok hok
    exact ⟨_, _, hexec, sameOutsideMemory_noteAll s _⟩
  | cset width n indent => exact ⟨_, _, exec_cset_of_ok hok, sameOutsideMemory_scatterField s width n indent⟩
  | cstr n => exact ⟨_, _, exec_cstr_of_array hok, sameOutsideMemory_noteAll s _⟩
  | bsize | get | set | getb | setb | idx | str | cloc => exact hok.elim

/-- Every instruction answers once, having changed nothing but the chunk memory and the note of its accesses. -/
theorem exec_eq_answer (i : Instr) (s : State) :
    ∃ u r, exec i s = .next (u.answer r) ∧ sameOutsideMemory s u := by
  obtain ⟨r, hr⟩ | hok := onlyAnswers_or_loopOk i s
  · exact ⟨s, r, hr.eq_next, rfl, rfl, rfl, rfl, rfl, rfl⟩
  · obtain ⟨u, p, hexec, hu⟩ := exec_of_loopOk hok
    exact ⟨u, _, hexec, hu⟩

/-- Settles O16: the state that answers differs from the one found in the memory and the access note only. -/
theorem everyInstructionIsAnsweredOnce : Obligations.EveryInstructionIsAnsweredOnce := by
  unfold Obligations.EveryInstructionIsAnsweredOnce
  intro i s
  obtain ⟨u, r, hexec, hu⟩ := exec_eq_answer i s
  refine ⟨u.answer r, r, hexec, answer_eq_of_sameOutsideMemory hu rfl r, ?_⟩
  obtain ⟨-, -, -, -, -, hseed⟩ := hu
  exact hseed

/-- No instruction but `CSET` writes the chunk memory (10_state.md R24). -/
theorem exec_ch_of_ne_cset {i : Instr} {s t : State} (hi : ∀ width n indent, i ≠ .cset width n indent)
    (h : exec i s = .next t) : t.ch = s.ch := by
  obtain ⟨r, hr⟩ | hok := onlyAnswers_or_loopOk i s
  · rw [hr.eq_answer h, State.answer_ch]
  · cases i with
    | cget width n indent =>
      obtain ⟨r, hexec, -⟩ := exec_cget_of_ok hok
      rw [eq_of_eq_next hexec h, State.answer_ch, State.noteAll_ch]
    | cset width n indent => exact absurd rfl (hi width n indent)
    | cstr n => rw [eq_of_eq_next (exec_cstr_of_array hok) h, State.answer_ch, State.noteAll_ch]
    | bsize | get | set | getb | setb | idx | str | cloc => exact hok.elim

/-- An operation without a loop over the chunk memory makes no access (10_state.md R24). -/
theorem exec_accesses_of_not_accessesMemory {i : Instr} {s t : State} (hi : i.accessesMemory = false)
    (h : exec i s = .next t) : t.accesses = s.accesses := by
  obtain ⟨r, hr⟩ := exec_answers_of_not_accessesMemory hi s
  rw [eq_of_eq_next hr h, State.answer_accesses]

/-- The machines `s` and `s'` of one build agree on the chunks below `k`. -/
structure State.AgreeBelow (k : Nat) (s s' : State) : Prop where
  params : s'.params = s.params
  chunk : ∀ j, j < k → s'.chunk j = s.chunk j

namespace State.AgreeBelow

variable {s s' : State} {k : Nat}

theorem cap (h : s.AgreeBelow k s') : s'.cap = s.cap := State.cap_congr h.params

theorem mono {n : Nat} (h : s.AgreeBelow n s') (hk : k ≤ n) : s.AgreeBelow k s' :=
  ⟨h.params, fun j hj => h.chunk j (hj.trans_le hk)⟩

theorem vec (h : s.AgreeBelow k s') : s'.vec k = s.vec k := State.vec_congr h.params h.chunk

theorem renderArray (h : s.AgreeBelow k s') : s'.renderArray k = s.renderArray k := by
  rw [State.renderArray, State.renderArray, h.cap]
  refine congrArg List.flatten (List.map_congr_left fun j hj => ?_)
  rw [h.chunk j (List.mem_range.1 hj)]

end State.AgreeBelow

theorem State.insertInChunk_at_same (s : State) (k off rem v : Nat) :
    (s.insertInChunk k off rem v).ch.at k = toWord (truncBits s.cap
      (insertField s.cap (s.chunk k) off (min (s.cap - off) rem) (v &&& lowMask (min (s.cap - off) rem)))) :=
  Memory.at_put_same _ _ _

theorem State.insertInChunk_chunk_same (s : State) (k off rem v : Nat) :
    (s.insertInChunk k off rem v).chunk k = truncBits s.cap ((s.insertInChunk k off rem v).ch.at k).toNat := rfl

section

variable {s s' : State} {k : Nat} (off rem v : Nat)

/-- One round of the scattering loop writes the same word on machines that agree on the chunk. -/
theorem State.AgreeBelow.insertInChunk_at_same (h : s.AgreeBelow (k + 1) s') :
    (s'.insertInChunk k off rem v).ch.at k = (s.insertInChunk k off rem v).ch.at k := by
  rw [State.insertInChunk_at_same, State.insertInChunk_at_same, h.cap, h.chunk k k.lt_add_one]

theorem State.AgreeBelow.insertInChunk (h : s.AgreeBelow (k + 1) s') :
    (s.insertInChunk k off rem v).AgreeBelow (k + 1) (s'.insertInChunk k off rem v) := by
  refine ⟨h.params, fun j hj => ?_⟩
  rcases Nat.lt_succ_iff_lt_or_eq.1 hj with hlow | rfl
  · rw [State.insertInChunk_chunk_other _ hlow.ne, State.insertInChunk_chunk_other _ hlow.ne, h.chunk j hj]
  · rw [State.insertInChunk_chunk_same, State.insertInChunk_chunk_same, h.cap, h.insertInChunk_at_same]

end

/-- The scattering loop makes the same accesses on machines that agree on the chunks it may touch, and they still agree
on them. -/
theorem State.AgreeBelow.scatter {s s' : State} {off k : Nat} (rem v : Nat) (h : s.AgreeBelow k s')
    (hoff : off ≤ s.cap) :
    (∃ as, (scatter s off rem v k).accesses = s.accesses ++ as ∧
      (scatter s' off rem v k).accesses = s'.accesses ++ as) ∧
      (scatter s off rem v k).AgreeBelow k (scatter s' off rem v k) := by
  induction k generalizing s s' off rem v with
  | zero => exact ⟨⟨[], (List.append_nil _).symm, (List.append_nil _).symm⟩, h⟩
  | succ k ih =>
    rcases Nat.eq_zero_or_pos rem with rfl | hrem
    · rw [scatter_rem_zero, scatter_rem_zero]
      exact ⟨⟨[], (List.append_nil _).symm, (List.append_nil _).symm⟩, h⟩
    · have hnext := h.insertInChunk off rem v
      rw [scatter_succ hoff hrem, scatter_succ (h.cap ▸ hoff) hrem, h.cap]
      obtain ⟨⟨as, has, has'⟩, hagree⟩ :=
        ih (off + rem - s.cap) (v >>> min (s.cap - off) rem) (hnext.mono k.le_succ) (Nat.zero_le _)
      refine ⟨⟨[.read k, .write k ((s.insertInChunk k off rem v).ch.at k)] ++ as, ?_, ?_⟩, hagree.params,
        fun j hj => ?_⟩
      · rw [has, State.insertInChunk_accesses, List.append_assoc]
      · rw [has', State.insertInChunk_accesses, List.append_assoc, h.insertInChunk_at_same]
      · rcases Nat.lt_succ_iff_lt_or_eq.1 hj with hlow | rfl
        · exact hagree.chunk j hlow
        · rw [State.chunk_congr scatter_params (scatter_at_of_le le_rfl),
            State.chunk_congr scatter_params (scatter_at_of_le le_rfl), hnext.chunk j hj]

end Sys2Proof.Machine


/-! On what a command's status, response and accesses depend (60_exceptions.md R165, R168; 70_reset_and_hazards.md
R195). -/

namespace Sys2Proof.Machine

/-- `CSET` on machines that agree on its array: the same accesses, and they agree on the array afterwards. -/
theorem State.AgreeBelow.scatterField {s s' : State} {width n indent : Nat} (h : s.AgreeBelow n s')
    (hcommand : s.SameCommand s') (hg : indent < n * s.cap) :
    (∃ as, (s.scatterField width n indent).accesses = s.accesses ++ as ∧
      (s'.scatterField width n indent).accesses = s'.accesses ++ as) ∧
      (s.scatterField width n indent).AgreeBelow n (s'.scatterField width n indent) := by
  have hk : chunkForBit s.cap n indent + 1 ≤ n := chunkForBit_lt Nat.one_ne_zero hg
  obtain ⟨has, hagree⟩ := (h.mono hk).scatter width s.cvalueOperand (Nat.mod_lt indent s.cap_pos).le
  rw [State.scatterField, State.scatterField, h.cap, hcommand.cvalueOperand]
  refine ⟨has, hagree.params, fun j hj => ?_⟩
  rcases Nat.lt_or_ge j (chunkForBit s.cap n indent + 1) with hlow | hhigh
  · exact hagree.chunk j hlow
  · rw [State.chunk_congr scatter_params (scatter_at_of_le hhigh),
      State.chunk_congr scatter_params (scatter_at_of_le hhigh), h.chunk j hj]

/-- Two operations answer alike: the same response after the same accesses, and the machines agree on the chunks below
`k` afterwards. -/
def AnswerAlike (k : Nat) (s s' : State) (o o' : Host.Outcome State Fault Refusal) : Prop :=
  ∃ t t' r as, o = .next t ∧ o' = .next t' ∧ t.responses = s.responses ++ [r] ∧ t'.responses = s'.responses ++ [r] ∧
    t.accesses = s.accesses ++ as ∧ t'.accesses = s'.accesses ++ as ∧ t.AgreeBelow k t'

theorem answerAlike_answer {k : Nat} {s s' : State} (h : s.AgreeBelow k s') (r : Response) :
    AnswerAlike k s s' (.next (s.answer r)) (.next (s'.answer r)) :=
  ⟨_, _, r, [], rfl, rfl, rfl, rfl, (List.append_nil _).symm, (List.append_nil _).symm, h.params, h.chunk⟩

theorem answerAlike_noteAll_answer {k : Nat} {s s' : State} (h : s.AgreeBelow k s') (as : List Access) (r : Response) :
    AnswerAlike k s s' (.next ((s.noteAll as).answer r)) (.next ((s'.noteAll as).answer r)) :=
  ⟨_, _, r, as, rfl, rfl, rfl, rfl, rfl, rfl, h.params, h.chunk⟩

/-- An instruction answers alike on machines of one build that agree on its operands and its array. -/
theorem exec_answerAlike {i : Instr} {s s' : State} (hcommand : s.SameCommand s')
    (h : s.AgreeBelow i.arrayLength s') : AnswerAlike i.arrayLength s s' (exec i s) (exec i s') := by
  obtain ⟨r, hr⟩ | hok := onlyAnswers_or_loopOk i s
  · rw [hr.eq_next, hr s' hcommand]
    exact answerAlike_answer h r
  · have hok' := hcommand.loopOk hok
    cases i with
    | cget width n indent =>
      obtain ⟨r, hexec, hr⟩ := exec_cget_of_ok hok
      obtain ⟨r', hexec', hr'⟩ := exec_cget_of_ok hok'
      have hvec : s'.vec n = s.vec n := h.vec
      obtain rfl : r' = r := BitVec.eq_of_toNat_eq (by rw [hr', hr, hvec])
      rw [hexec, hexec', h.cap]
      exact answerAlike_noteAll_answer h _ _
    | cset width n indent =>
      have hspan : indent + width ≤ n * s.cap := State.CgetOk.span (State.CsetOk.toCgetOk hok)
      have hpos : 0 < width := State.CgetOk.pos (State.CsetOk.toCgetOk hok)
      have hg : indent < n * s.cap := (Nat.lt_add_of_pos_right hpos).trans_le hspan
      obtain ⟨⟨as, has, has'⟩, hagree⟩ := State.AgreeBelow.scatterField (width := width) h hcommand hg
      obtain ⟨-, -, hresponses, -⟩ := sameOutsideMemory_scatterField s width n indent
      obtain ⟨-, -, hresponses', -⟩ := sameOutsideMemory_scatterField s' width n indent
      rw [exec_cset_of_ok hok, exec_cset_of_ok hok']
      refine ⟨_, _, .ok .done, as, rfl, rfl, ?_, ?_, has, has', hagree.params, hagree.chunk⟩
      · rw [State.answer_responses, hresponses]
      · rw [State.answer_responses, hresponses']
    | cstr n =>
      have harray : s'.renderArray n = s.renderArray n := h.renderArray
      rw [exec_cstr_of_array hok, exec_cstr_of_array hok', harray]
      exact answerAlike_noteAll_answer h _ _
    | bsize | get | set | getb | setb | idx | str | cloc => exact hok.elim

/-- The status of an instruction is decided by its operands and the build (60_exceptions.md R168). -/
theorem exec_status_congr (i : Instr) {s s' : State} (hcommand : s.SameCommand s') :
    ∃ t t' r r', exec i s = .next t ∧ exec i s' = .next t' ∧ t.responses = s.responses ++ [r] ∧
      t'.responses = s'.responses ++ [r'] ∧ r.status = r'.status := by
  obtain ⟨r, hr⟩ | hok := onlyAnswers_or_loopOk i s
  · exact ⟨_, _, r, r, hr.eq_next, hr s' hcommand, rfl, rfl, rfl⟩
  · obtain ⟨u, p, hexec, -, -, hu, -⟩ := exec_of_loopOk hok
    obtain ⟨u', p', hexec', -, -, hu', -⟩ := exec_of_loopOk (hcommand.loopOk hok)
    refine ⟨_, _, .ok p, .ok p', hexec, hexec', ?_, ?_, rfl⟩
    · rw [State.answer_responses, hu]
    · rw [State.answer_responses, hu']

theorem State.sameCommand_accept {s s' : State} (hp : s'.params = s.params) (c : Command) :
    (s.accept c).SameCommand (s'.accept c) := ⟨hp, rfl⟩

/-- Settles O18: a word that decodes to nothing is `ILLEGAL_OP` on both machines, and an instruction's status is decided
by its operands and the build. -/
theorem statusIsAFunctionOfCommandAndBuild : Obligations.StatusIsAFunctionOfCommandAndBuild := by
  unfold Obligations.StatusIsAFunctionOfCommandAndBuild
  intro c s₁ s₂ hp
  cases hdecode : decode s₁.params.hasCset c.ctl with
  | error e =>
    rw [runCommand_eq_raise hdecode, runCommand_eq_raise (hp ▸ hdecode)]
    exact ⟨_, _, .error .illegalOp, .error .illegalOp, rfl, rfl, rfl, rfl, rfl⟩
  | ok i =>
    rw [runCommand_eq_exec hdecode, runCommand_eq_exec (hp ▸ hdecode)]
    exact exec_status_congr i (State.sameCommand_accept hp.symm c)

/-- Settles O19: a word that decodes to nothing is answered alike whatever the memory holds, and an instruction on
machines that agree on its array; both start with an empty access note. -/
theorem commandsDoNotInterfere : Obligations.CommandsDoNotInterfere := by
  unfold Obligations.CommandsDoNotInterfere
  intro c s₁ s₂ hp hch
  cases hdecode : decode s₁.params.hasCset c.ctl with
  | error e =>
    rw [runCommand_eq_raise hdecode, runCommand_eq_raise (hp ▸ hdecode)]
    exact ⟨_, _, .error .illegalOp, rfl, rfl, rfl, rfl, rfl, nofun⟩
  | ok i =>
    rw [runCommand_eq_exec hdecode, runCommand_eq_exec (hp ▸ hdecode)]
    have hagree : (s₁.accept c).AgreeBelow i.arrayLength (s₂.accept c) :=
      ⟨hp.symm, fun j hj => (hch i hdecode j hj).symm⟩
    obtain ⟨t₁, t₂, r, as, h₁, h₂, hr₁, hr₂, has₁, has₂, hafter⟩ :=
      exec_answerAlike (State.sameCommand_accept hp.symm c) hagree
    refine ⟨t₁, t₂, r, h₁, h₂, hr₁, hr₂, has₁.trans has₂.symm, fun i' hi' j hj => ?_⟩
    cases hi'
    exact (hafter.chunk j hj).symm

/-- Settles O26: each status by itself. -/
theorem statusCodesOfTheTable : Obligations.StatusCodesOfTheTable := by
  unfold Obligations.StatusCodesOfTheTable
  refine ⟨rfl, rfl, rfl, rfl, rfl, fun st => ?range, fun st st' h => ?injective, fun _ => rfl, fun k => ?error⟩
  case range => cases st <;> decide
  case injective => cases st <;> cases st' <;> cases h <;> rfl
  case error => cases k <;> exact nofun

/-- Settles O27: the decoder's error comes before any meaning, and every meaning checks its field `width` and its array
before what the source checks. -/
theorem badOperandComesBeforeTheSourcesErrors : Obligations.BadOperandComesBeforeTheSourcesErrors := by
  unfold Obligations.BadOperandComesBeforeTheSourcesErrors
  refine ⟨fun c s e hdecode => runCommand_eq_raise hdecode, fun i s hpresent hbad => ?_⟩
  rcases hbad with ⟨indent, rfl⟩ | ⟨indent, rfl⟩ | ⟨n, indent, rfl⟩ | ⟨n, indent, rfl⟩ | rfl | ⟨n, indent, rfl⟩ |
    ⟨n, indent, rfl⟩ | ⟨width, n, indent, hlong, rfl | rfl | rfl | rfl⟩
  · exact exec_get_of_width_eq_zero rfl
  · exact exec_set_of_width_eq_zero rfl
  · exact exec_getb_of_width_eq_zero rfl
  · exact exec_setb_of_width_eq_zero rfl
  · exact exec_idx_of_width_eq_zero rfl
  · exact exec_cget_of_bad_operand (.inl rfl)
  · exact exec_cset_of_bad_operand hpresent (.inl rfl)
  · exact exec_cloc_of_arrayTooLong hlong
  · exact exec_cget_of_bad_operand (.inr hlong)
  · exact exec_cset_of_bad_operand hpresent (.inr hlong)
  · exact exec_cstr_of_arrayTooLong hlong

end Sys2Proof.Machine


/-! The step and the moves of the host (10_state.md R24, R26; 70_reset_and_hazards.md R190 to R192, R201). -/

namespace Sys2Proof.Machine

theorem step_nil {s : State} (h : s.inbox = []) : step s = .next s := by
  simp only [step, h]

theorem step_cons {s : State} {m : HostMove} {rest : List HostMove} (h : s.inbox = m :: rest) :
    step s = applyMove m { s with inbox := rest } := by
  simp only [step, h]

theorem hostWrite_of_lt {s : State} {j : Nat} (v : Word) (hj : j < s.params.nchunk) :
    hostWrite j v s = .next (s.storeChunk j v.toNat) := if_pos hj

theorem hostWrite_of_le {s : State} {j : Nat} (v : Word) (hj : s.params.nchunk ≤ j) :
    hostWrite j v s = .fault (.noSuchChunk j) := if_neg (Nat.not_lt.2 hj)

/-- Every command is answered, having changed nothing but the chunk memory and the note of its accesses. -/
theorem runCommand_eq_answer (c : Command) (s : State) :
    ∃ u r, runCommand c s = .next (u.answer r) ∧ sameOutsideMemory (s.accept c) u := by
  cases hdecode : decode s.params.hasCset c.ctl with
  | error e =>
    rw [runCommand_eq_raise hdecode]
    exact ⟨s.accept c, .error .illegalOp, rfl, rfl, rfl, rfl, rfl, rfl, rfl⟩
  | ok i =>
    rw [runCommand_eq_exec hdecode]
    exact exec_eq_answer i (s.accept c)

/-- The command that presents a 32-bit control word, every operand zero. -/
theorem commandOfWord_toNat (w : BitVec 32) : commandOfWord 32 w.toNat = { Command.idle with ctl := w } := by
  rw [commandOfWord, Nat.mod_eq_of_lt w.isLt, BitVec.ofNat_toNat, BitVec.setWidth_eq]

/-- Settles O9: the step takes the command, which `runCommand` decodes and executes. -/
theorem stepRunsTheDecodedInstruction : Obligations.StepRunsTheDecodedInstruction := by
  unfold Obligations.StepRunsTheDecodedInstruction
  intro s c rest i hinbox hdecode
  exact (step_command hinbox).trans (runCommand_eq_exec hdecode)

/-- Settles O10: the placed word decodes to the instruction it encodes. -/
theorem placedWordIsRunNext : Obligations.PlacedWordIsRunNext := by
  unfold Obligations.PlacedWordIsRunNext
  intro s i hi hpresent
  rw [step_command rfl, commandOfWord_toNat]
  exact runCommand_eq_exec (decode_encode hi hpresent)

/-- Settles O11: with no move to come the step is the identity. -/
theorem idleStepChangesNothing : Obligations.IdleStepChangesNothing := by
  unfold Obligations.IdleStepChangesNothing
  exact fun _ => step_nil

/-- Settles O13: the host's write checks its index. -/
theorem hostWriteOutsideTheMemoryFaults : Obligations.HostWriteOutsideTheMemoryFaults := by
  unfold Obligations.HostWriteOutsideTheMemoryFaults
  intro s j v rest hinbox hj
  exact (step_cons hinbox).trans (hostWrite_of_le v hj)

/-- Settles O14: reset does nothing to the machine it finds between commands. -/
theorem resetBetweenCommandsChangesNothing : Obligations.ResetBetweenCommandsChangesNothing := by
  unfold Obligations.ResetBetweenCommandsChangesNothing
  exact fun s rest hinbox => step_cons hinbox

/-- A command whose word does not decode to `CSET` writes no chunk (10_state.md R24). -/
theorem runCommand_ch_of_not_cset {c : Command} {s t : State}
    (hcset : ∀ width n indent, decode s.params.hasCset c.ctl ≠ .ok (.cset width n indent))
    (h : runCommand c s = .next t) : t.ch = s.ch := by
  cases hdecode : decode s.params.hasCset c.ctl with
  | error e => rw [eq_of_eq_next (runCommand_eq_raise hdecode) h, State.answer_ch, State.accept_ch]
  | ok i =>
    rw [runCommand_eq_exec hdecode] at h
    have hi (width n indent : Nat) : i ≠ .cset width n indent := fun hi => hcset width n indent (hi ▸ hdecode)
    exact (exec_ch_of_ne_cset hi h).trans (s.accept_ch c)

/-- A command whose word decodes to no operation with a loop over the chunk memory makes no access (10_state.md R24). -/
theorem runCommand_accesses_eq_nil {c : Command} {s t : State}
    (hloop : ∀ i, decode s.params.hasCset c.ctl = .ok i → i.accessesMemory = false)
    (h : runCommand c s = .next t) : t.accesses = [] := by
  cases hdecode : decode s.params.hasCset c.ctl with
  | error e => rw [eq_of_eq_next (runCommand_eq_raise hdecode) h, State.answer_accesses, State.accept_accesses]
  | ok i =>
    rw [runCommand_eq_exec hdecode] at h
    exact exec_accesses_of_not_accessesMemory (hloop i hdecode) h

/-- Settles O12: the host's write stores one chunk; a command writes or accesses chunks as its instruction does. -/
theorem chunkMemoryWrittenByHostAndCsetOnly : Obligations.ChunkMemoryWrittenByHostAndCsetOnly := by
  unfold Obligations.ChunkMemoryWrittenByHostAndCsetOnly
  constructor
  · intro s j v rest hinbox hj
    exact ⟨_, (step_cons hinbox).trans (hostWrite_of_lt v hj), rfl, State.storeChunk_chunk_same _ j v.toNat,
      fun j' hne => Memory.at_put_other _ hne _⟩
  · intro c s t hrun
    refine ⟨fun hcset => runCommand_ch_of_not_cset hcset hrun, fun hcset hcget hcstr => ?_⟩
    refine runCommand_accesses_eq_nil (fun i hi => ?_) hrun
    cases i with
    | cget width n indent => exact absurd hi (hcget width n indent)
    | cset width n indent => exact absurd hi (hcset width n indent)
    | cstr n => exact absurd hi (hcstr n)
    | bsize | get | set | getb | setb | idx | str | cloc => rfl

/-! A command that reset abandons (70_reset_and_hazards.md R191). -/

/-- The machine after reset has abandoned a command that would have made the accesses `as`. -/
def State.abandoned (s : State) (as : List Access) : State :=
  { s with ch := (landWrites s as).ch, port := Command.idle, accesses := [], draws := s.draws + 1 }

@[simp] theorem State.abandoned_ch (s : State) (as : List Access) :
    (s.abandoned as).ch = (landWrites s as).ch := rfl

theorem abandonCommand_of_runCommand {c : Command} {s t : State} (h : runCommand c s = .next t) :
    abandonCommand c s = .next (s.abandoned t.accesses) := by
  obtain ⟨-, ⟨hparams, -, hresponses, hinbox, hdraws, -⟩, -⟩ := landWrites_frame s t.accesses
  simp only [abandonCommand, h, State.abandoned, hparams, hresponses, hinbox, hdraws]

theorem landWrites_of_no_write {s : State} {as : List Access} (h : ∀ j v, .write j v ∉ as) : landWrites s as = s := by
  induction as with
  | nil => rfl
  | cons a as ih =>
    cases a with
    | read k => exact ih fun j v hv => h j v (.tail _ hv)
    | write k w => exact absurd (.head _) (h k w)

theorem write_not_mem_readsDown {k m j : Nat} {v : Word} : .write j v ∉ readsDown k m := by
  simp [readsDown]

theorem write_mem_rewritesDown {ch : Memory} {k m j : Nat} {v : Word} (h : .write j v ∈ rewritesDown ch k m) :
    v = ch.at j ∧ ∃ i, i < m ∧ j = k - i := by
  simp only [rewritesDown, List.mem_flatMap, List.mem_range, List.mem_cons, Access.write.injEq, reduceCtorEq,
    List.not_mem_nil, or_false, false_or] at h
  obtain ⟨i, hi, rfl, rfl⟩ := h
  exact ⟨rfl, i, hi, rfl⟩

/-- The chunks of the span of a field go down to the one that holds the field's last bit (44_chunked.md R145). -/
theorem chunkForBit_last_le {C g w i : Nat} (n : Nat) (hC : 0 < C) (hw : 0 < w) (hi : i < chunksSpanned C g w) :
    chunkForBit C n (g + w - 1) ≤ chunkForBit C n g - i := by
  have hrounds : (i + 1) * C ≤ g % C + w + C - 1 := (Nat.le_div_iff_mul_le hC).1 hi
  have hdiv : i + g / C ≤ (g + w - 1) / C := by
    rw [Nat.le_div_iff_mul_le hC, Nat.add_mul]
    have hplace := Nat.div_add_mod' g C
    rw [Nat.succ_mul] at hrounds
    omega
  rw [chunkForBit, chunkForBit, Nat.sub_sub _ _ i, Nat.add_comm _ i]
  exact Nat.sub_le_sub_left hdiv _

/-- A write is `CSET`'s, is made to a chunk of its span, and is the word the command leaves there. -/
theorem exec_write {i : Instr} {s t : State} {j : Nat} {v : Word} (h : exec i s = .next t) (hs : s.accesses = [])
    (hv : .write j v ∈ t.accesses) : v = t.ch.at j ∧ ∃ width n indent, i = .cset width n indent ∧
      chunkForBit s.cap n (indent + width - 1) ≤ j ∧ j ≤ chunkForBit s.cap n indent := by
  obtain ⟨r, hr⟩ | hok := onlyAnswers_or_loopOk i s
  · rw [hr.eq_answer h, State.answer_accesses, hs] at hv
    cases hv
  · cases i with
    | cget width n indent =>
      obtain ⟨r, hexec, -⟩ := exec_cget_of_ok hok
      rw [eq_of_eq_next hexec h, State.answer_accesses, State.noteAll_accesses, hs] at hv
      exact absurd hv write_not_mem_readsDown
    | cset width n indent =>
      have hcget : s.CgetOk width n indent := State.CsetOk.toCgetOk hok
      obtain rfl := eq_of_eq_next (exec_cset_of_ok hok) h
      rw [State.answer_accesses, State.scatterField_accesses hcget.pos hcget.span, hs] at hv
      obtain ⟨hword, l, hl, rfl⟩ := write_mem_rewritesDown hv
      exact ⟨hword, width, n, indent, rfl, chunkForBit_last_le n s.cap_pos hcget.pos hl, Nat.sub_le _ _⟩
    | cstr n =>
      rw [eq_of_eq_next (exec_cstr_of_array hok) h, State.answer_accesses, State.noteAll_accesses, hs] at hv
      simp at hv
    | bsize | get | set | getb | setb | idx | str | cloc => exact hok.elim

theorem runCommand_write {c : Command} {s t : State} {j : Nat} {v : Word} (h : runCommand c s = .next t)
    (hv : .write j v ∈ t.accesses) : v = t.ch.at j ∧ ∃ width n indent,
      decode s.params.hasCset c.ctl = .ok (.cset width n indent) ∧
      chunkForBit s.cap n (indent + width - 1) ≤ j ∧ j ≤ chunkForBit s.cap n indent := by
  cases hdecode : decode s.params.hasCset c.ctl with
  | error e =>
    rw [eq_of_eq_next (runCommand_eq_raise hdecode) h] at hv
    cases hv
  | ok i =>
    rw [runCommand_eq_exec hdecode] at h
    obtain ⟨hword, width, n, indent, rfl, hspan⟩ := exec_write h rfl hv
    exact ⟨hword, width, n, indent, rfl, hspan⟩

theorem runCommand_params {c : Command} {s t : State} (h : runCommand c s = .next t) : t.params = s.params := by
  obtain ⟨u, r, hrun, hparams, -⟩ := runCommand_eq_answer c s
  rw [eq_of_eq_next hrun h]
  exact hparams

/-- Each chunk of an abandoned command holds its old content or what the command would have left (R191). -/
theorem abandoned_chunk {c : Command} {s t : State} (h : runCommand c s = .next t) (j : Nat) :
    (s.abandoned t.accesses).chunk j = s.chunk j ∨ (s.abandoned t.accesses).chunk j = t.chunk j := by
  obtain ⟨-, ⟨hparams, -⟩, -, hchunk, -⟩ := landWrites_frame s t.accesses
  have hlanded : (s.abandoned t.accesses).chunk j = (landWrites s t.accesses).chunk j :=
    State.chunk_congr hparams.symm rfl
  rw [hlanded]
  refine (hchunk j).imp_right ?_
  rintro ⟨v, hv, hnew⟩
  obtain ⟨hword, -⟩ := runCommand_write h hv
  rw [hnew, hword, State.chunk, State.cap_congr (runCommand_params h)]

/-- Settles O15: of the writes the command would have made, those that landed decide each chunk; only `CSET` makes any,
and only in its span. -/
theorem abandonedCommandLeavesEachChunkOldOrNew : Obligations.AbandonedCommandLeavesEachChunkOldOrNew := by
  unfold Obligations.AbandonedCommandLeavesEachChunkOldOrNew
  intro s c rest hinbox
  obtain ⟨u, r, hrun, -⟩ := runCommand_eq_answer c { s with inbox := rest }
  have hstep := (step_cons hinbox).trans (abandonCommand_of_runCommand hrun)
  refine ⟨_, _, hstep, hrun, rfl, abandoned_chunk hrun, fun hcset => ?other,
    fun width n indent hdecode j hj => ?outside⟩
  case other =>
    have hnone : landWrites { s with inbox := rest } (u.answer r).accesses = { s with inbox := rest } := by
      refine landWrites_of_no_write fun j v hv => ?_
      obtain ⟨-, width, n, indent, hdecode, -⟩ := runCommand_write hrun hv
      exact hcset width n indent hdecode
    rw [State.abandoned_ch, hnone]
  case outside =>
    obtain ⟨-, -, hkept, -, -⟩ := landWrites_frame { s with inbox := rest } (u.answer r).accesses
    refine hkept j fun v hv => ?_
    obtain ⟨-, width', n', indent', hdecode', hlast, hfirst⟩ := runCommand_write hrun hv
    cases hdecode.symm.trans hdecode'
    exact hj.elim (Nat.not_lt.2 hfirst) (Nat.not_lt.2 hlast)

end Sys2Proof.Machine


/-! What every step keeps: responses inside their widths (30_encoding.md R69), a canonical memory (20_memory.md R40), a
legal build (00_scope.md R7). -/

namespace Sys2Proof.Machine

/-- The operation answers the command of `s` with a response the block can produce. -/
def AnswersWf (s : State) (o : Host.Outcome State Fault Refusal) : Prop :=
  ∃ (u : State) (r : Response), o = .next (u.answer r) ∧ u.responses = s.responses ∧ r.wf s.params = true

theorem answersWf_raise (s : State) (kind : ErrorKind) : AnswersWf s (s.raise kind) := ⟨s, _, rfl, rfl, rfl⟩

theorem answersWf_ret {s : State} {p : Payload} (hp : (Response.ok p).wf s.params = true) : AnswersWf s (s.ret p) :=
  ⟨s, _, rfl, rfl, hp⟩

theorem wf_res {s : State} {r : Word} {a : Nat} (hr : r.toNat = a) (ha : a < 2 ^ s.cap) :
    (Response.ok (.res r)).wf s.params = true :=
  decide_eq_true (hr ▸ ha)

theorem exec_bsize_answersWf (s : State) : AnswersWf s (exec .bsize s) := by
  refine answersWf_ret (p := .size (BitVec.ofNat 7 (bitSize s.valueOperand))) ?_
  simp only [Response.wf, s.toNat_bitSize_valueOperand, Bool.and_eq_true, decide_eq_true_eq]
  exact ⟨bitSize_pos _, s.bitSize_valueOperand_le⟩

theorem exec_get_answersWf (width indent : Nat) (s : State) : AnswersWf s (exec (.get width indent) s) := by
  rcases Nat.eq_zero_or_pos width with hzero | hpos
  · exact exec_get_of_width_eq_zero hzero ▸ answersWf_raise s _
  · rcases Nat.lt_or_ge s.cap (indent % s.cap + width) with hpast | hspan
    · exact exec_get_of_span_past_word hpos hpast ▸ answersWf_raise s _
    · obtain ⟨r, hexec, hr⟩ := exec_get_eq_ok hpos hspan
      have hlt := (extractField_lt s.bitsOperand (indent % s.cap) width).trans_le
        (Nat.pow_le_pow_right Nat.two_pos (le_of_add_le_right hspan))
      exact hexec ▸ answersWf_ret (wf_res hr hlt)

theorem exec_set_answersWf (width indent : Nat) (s : State) : AnswersWf s (exec (.set width indent) s) := by
  rcases Nat.eq_zero_or_pos width with hzero | hpos
  · exact exec_set_of_width_eq_zero hzero ▸ answersWf_raise s _
  · by_cases hover : 2 ^ width ≤ s.valueOperand ∨ s.cap < indent % s.cap + width
    · exact exec_set_of_overflow hpos hover ▸ answersWf_raise s _
    · obtain ⟨hfit, hspan⟩ := not_or.1 hover
      obtain ⟨r, hexec, hr⟩ := exec_set_eq_ok hpos (Nat.not_le.1 hfit) (Nat.not_lt.1 hspan)
      exact hexec ▸ answersWf_ret (wf_res hr (insertField_lt _ s.bitsOperand_lt (Nat.not_lt.1 hspan)))

theorem exec_getb_answersWf (width n indent : Nat) (s : State) : AnswersWf s (exec (.getb width n indent) s) := by
  rcases Nat.eq_zero_or_pos width with hzero | hpos
  · exact exec_getb_of_width_eq_zero hzero ▸ answersWf_raise s _
  · rcases Nat.lt_or_ge s.cap (indent % s.cap + n * width) with hpast | hspan
    · exact exec_getb_of_fields_past_word hpos hpast ▸ answersWf_raise s _
    · obtain ⟨vs, hexec, hvs⟩ := exec_getb_eq_ok (s := s) hpos hspan
      have hlength : vs.length ≤ s.cap := by
        rw [← List.length_map (f := BitVec.toNat), hvs, length_getFields]
        exact (Nat.le_mul_of_pos_right n hpos).trans (le_of_add_le_right hspan)
      have hlt (v : Word) (hv : v ∈ vs) : v.toNat < 2 ^ s.cap :=
        lt_of_mem_getFields s.bitsOperand_lt (hvs ▸ List.mem_map_of_mem hv)
      refine hexec ▸ answersWf_ret ?_
      simp only [Response.wf, Bool.and_eq_true, decide_eq_true_eq, List.all_eq_true]
      exact ⟨hlength, hlt⟩

theorem exec_setb_answersWf (width n indent : Nat) (s : State) : AnswersWf s (exec (.setb width n indent) s) := by
  rcases Nat.eq_zero_or_pos width with hzero | hpos
  · exact exec_setb_of_width_eq_zero hzero ▸ answersWf_raise s _
  · by_cases hover : s.cap < indent % s.cap + n * width ∨ ∃ k, k < n ∧ 2 ^ width ≤ s.seqLane k
    · exact exec_setb_of_overflow hpos hover ▸ answersWf_raise s _
    · obtain ⟨hpast, hwide⟩ := not_or.1 hover
      have hspan := Nat.not_lt.1 hpast
      obtain ⟨r, hexec, hr⟩ := exec_setb_eq_ok hpos hspan
        fun k hk => Nat.not_le.1 fun hle => hwide ⟨k, hk, hle⟩
      exact hexec ▸ answersWf_ret (wf_res hr (putFields_lt s.bitsOperand_lt (by rwa [s.length_seqOperand])))

theorem exec_idx_answersWf (width : Nat) (s : State) : AnswersWf s (exec (.idx width) s) := by
  rcases Nat.eq_zero_or_pos width with hzero | hpos
  · exact exec_idx_of_width_eq_zero hzero ▸ answersWf_raise s _
  · rcases Nat.lt_or_ge s.valueOperand (2 ^ width) with hfit | hwide
    · refine exec_idx_eq_ok hpos hfit ▸ answersWf_ret ?_
      cases hscan : findField s.bitsOperand width s.valueOperand (s.cap / width) with
      | none => rfl
      | some k =>
        have hk : k < s.cap / width := (findField_eq_some hscan).1
        have hindex : (BitVec.ofNat 7 k).toNat < s.cap := by
          rw [State.toNat_fieldIndex hk]
          exact hk.trans_le (Nat.div_le_self _ _)
        exact decide_eq_true hindex
    · exact exec_idx_of_value_too_wide hpos hwide ▸ answersWf_raise s _

/-- A string of whole words of an array that exists is one the block can produce. -/
theorem wf_str {s : State} {cs : List Symbol} {n : Nat} (hlength : cs.length = n * s.cap) (hn : n ≤ s.params.nchunk) :
    (Response.ok (.str cs)).wf s.params = true := by
  simp only [Response.wf, hlength, Bool.and_eq_true, decide_eq_true_eq]
  exact ⟨Nat.mul_mod_left _ _, Nat.mul_le_mul_right _ hn⟩

theorem exec_str_answersWf {s : State} (hp : s.params.WellFormed) : AnswersWf s (exec .str s) := by
  obtain ⟨hone, -⟩ := hp
  exact answersWf_ret (wf_str (n := 1) (by rw [render_length, Nat.one_mul]) hone)

theorem exec_cloc_answersWf (n indent : Nat) (s : State) : AnswersWf s (exec (.cloc n indent) s) := by
  rcases Nat.lt_or_ge s.params.nchunk n with hlong | hn
  · exact exec_cloc_of_arrayTooLong hlong ▸ answersWf_raise s _
  · rcases Nat.lt_or_ge indent (n * s.cap) with hin | hpast
    · have hchunk : (BitVec.ofNat 7 (chunkForBit s.cap n indent)).toNat < s.params.nchunk :=
        (Nat.mod_le _ _).trans_lt ((chunkForBit_lt Nat.one_ne_zero hin).trans_le hn)
      exact exec_cloc_eq_ok hn hin ▸ answersWf_ret (decide_eq_true hchunk)
    · exact exec_cloc_of_past_array hn hpast ▸ answersWf_raise s _

theorem exec_cget_answersWf (width n indent : Nat) (s : State) : AnswersWf s (exec (.cget width n indent) s) := by
  obtain ⟨k, hk⟩ | hok := onlyAnswers_error_or_cgetOk s width n indent
  · exact hk.eq_next ▸ answersWf_raise s k
  · obtain ⟨r, hexec, hr⟩ := exec_cget_of_ok hok
    have hlt : r.toNat < 2 ^ s.rcap :=
      hr ▸ (extractField_lt _ _ _).trans_le (Nat.pow_le_pow_right Nat.two_pos hok.dest)
    exact ⟨_, _, hexec, rfl, decide_eq_true hlt⟩

theorem exec_cset_answersWf (width n indent : Nat) (s : State) : AnswersWf s (exec (.cset width n indent) s) := by
  obtain ⟨k, hk⟩ | hok := onlyAnswers_error_or_csetOk s width n indent
  · exact hk.eq_next ▸ answersWf_raise s k
  · obtain ⟨-, -, hresponses, -⟩ := sameOutsideMemory_scatterField s width n indent
    exact ⟨_, _, exec_cset_of_ok hok, hresponses, rfl⟩

theorem exec_cstr_answersWf (n : Nat) (s : State) : AnswersWf s (exec (.cstr n) s) := by
  obtain ⟨k, hk⟩ | hn := onlyAnswers_error_or_array s n
  · exact hk.eq_next ▸ answersWf_raise s k
  · exact ⟨_, _, exec_cstr_of_array hn, rfl, wf_str (s.length_renderArray n) hn⟩

/-- In a legal build every instruction answers with a response the block can produce (30_encoding.md R69). -/
theorem exec_answersWf {s : State} (hp : s.params.WellFormed) (i : Instr) : AnswersWf s (exec i s) := by
  cases i with
  | bsize => exact exec_bsize_answersWf s
  | get width indent => exact exec_get_answersWf width indent s
  | set width indent => exact exec_set_answersWf width indent s
  | getb width n indent => exact exec_getb_answersWf width n indent s
  | setb width n indent => exact exec_setb_answersWf width n indent s
  | idx width => exact exec_idx_answersWf width s
  | str => exact exec_str_answersWf hp
  | cloc n indent => exact exec_cloc_answersWf n indent s
  | cget width n indent => exact exec_cget_answersWf width n indent s
  | cset width n indent => exact exec_cset_answersWf width n indent s
  | cstr n => exact exec_cstr_answersWf n s

theorem runCommand_answersWf {s : State} (hp : s.params.WellFormed) (c : Command) : AnswersWf s (runCommand c s) := by
  cases hdecode : decode s.params.hasCset c.ctl with
  | error e =>
    rw [runCommand_eq_raise hdecode]
    exact answersWf_raise (s.accept c) .illegalOp
  | ok i =>
    rw [runCommand_eq_exec hdecode]
    exact exec_answersWf (s := s.accept c) hp i

/-- Every instruction keeps the canonical form of the memory (20_memory.md R40). -/
theorem exec_memory_wf {i : Instr} {s t : State} (h : exec i s = .next t) (hw : s.ch.wf s.params = true) :
    t.ch.wf s.params = true := by
  cases i with
  | cset width n indent =>
    obtain ⟨k, rfl⟩ | ⟨hok, rfl⟩ := exec_cset_cases h
    · exact hw
    · obtain ⟨-, -, -, hkeep⟩ :=
        scatter_frame s (indent % s.cap) width s.cvalueOperand (chunkForBit s.cap n indent + 1)
      have hfirst : chunkForBit s.cap n indent < n := chunkForBit_lt hok.pos.ne' hok.span
      exact hkeep (Nat.le_trans hfirst hok.array) hw
  | bsize | get | set | getb | setb | idx | str | cloc | cget | cstr =>
    exact exec_ch_of_ne_cset (fun _ _ _ => Instr.noConfusion) h ▸ hw

theorem runCommand_memory_wf {c : Command} {s t : State} (h : runCommand c s = .next t)
    (hw : s.ch.wf s.params = true) : t.ch.wf s.params = true := by
  cases hdecode : decode s.params.hasCset c.ctl with
  | error e => exact eq_of_eq_next (runCommand_eq_raise hdecode) h ▸ hw
  | ok i =>
    rw [runCommand_eq_exec hdecode] at h
    exact exec_memory_wf (s := s.accept c) h hw

theorem State.Inv.runCommand {c : Command} {s t : State} (hinv : s.Inv) (h : runCommand c s = .next t) : t.Inv := by
  obtain ⟨hp, hw, -, hresponses⟩ := hinv
  have hparams := runCommand_params h
  have hw' := runCommand_memory_wf h hw
  obtain ⟨u, r, hanswer, hu, hr⟩ := runCommand_answersWf hp c
  obtain rfl := eq_of_eq_next hanswer h
  rw [State.Inv, hparams]
  refine ⟨hp, hw', rfl, ?_⟩
  rw [State.answer_responses, hu, List.all_append, hresponses, List.all_cons, hr]
  rfl

/-- The writes of a command that land keep the canonical form, all of them being inside the chunk memory. -/
theorem State.Inv.abandoned {c : Command} {s t : State} (hinv : s.Inv) (h : Machine.runCommand c s = .next t) :
    (s.abandoned t.accesses).Inv := by
  obtain ⟨hp, hw, -, hresponses⟩ := hinv
  obtain ⟨-, -, -, -, hkeep⟩ := landWrites_frame s t.accesses
  refine ⟨hp, hkeep (fun j v hv => ?_) hw, rfl, hresponses⟩
  obtain ⟨-, width, n, indent, hdecode, -⟩ := runCommand_write h hv
  obtain ⟨hinside, -, -⟩ := chunksOutsideTheArrayNeitherReadNorWritten c s t _ hdecode h
  exact (hinside _ hv).2

/-- Every move of the host keeps the invariant. -/
theorem State.Inv.applyMove {m : HostMove} {s t : State} (hinv : s.Inv) (h : applyMove m s = .next t) : t.Inv := by
  cases m with
  | command c => exact hinv.runCommand h
  | write j v =>
    rcases Nat.lt_or_ge j s.params.nchunk with hj | hj
    · obtain rfl := eq_of_eq_next (hostWrite_of_lt v hj) h
      obtain ⟨hp, hw, hport, hresponses⟩ := hinv
      exact ⟨hp, State.storeChunk_wf hw hj _, hport, hresponses⟩
    · cases (hostWrite_of_le v hj).symm.trans h
  | reset =>
    obtain rfl : s = t := (Outcome.next_inj s t).1 h
    exact hinv
  | commandThenReset c =>
    obtain ⟨u, r, hrun, -⟩ := runCommand_eq_answer c s
    obtain rfl := eq_of_eq_next (abandonCommand_of_runCommand hrun) h
    exact hinv.abandoned hrun

/-- Settles O21: an idle step changes nothing, and every move of the host keeps the invariant, which does not speak of
the moves still to come. -/
theorem stepKeepsTheInvariant : Obligations.StepKeepsTheInvariant := by
  unfold Obligations.StepKeepsTheInvariant
  intro s t hinv hstep
  cases hinbox : s.inbox with
  | nil => exact eq_of_eq_next (step_nil hinbox) hstep ▸ hinv
  | cons m rest =>
    have hrest : State.Inv { s with inbox := rest } := hinv
    exact hrest.applyMove ((step_cons hinbox).symm.trans hstep)

theorem inv_resetWith {p : Params} (hp : p.WellFormed) : (State.resetWith p).Inv :=
  ⟨hp, resetWith_memory_wf p, rfl, rfl⟩

/-- Settles O22: after reset nothing is in the memory and nothing has been answered. -/
theorem resetMeetsTheInvariant : Obligations.ResetMeetsTheInvariant := by
  unfold Obligations.ResetMeetsTheInvariant
  exact ⟨fun p => inv_resetWith, inv_resetWith (by decide)⟩

/-! Runs (70_reset_and_hazards.md R201, R203). -/

/-- A move that exists goes on, takes nothing from what is to come, and is answered if it is a command that reset does
not abandon. -/
theorem applyMove_of_possible {m : HostMove} {s : State} (h : m.possible s.params = true) :
    ∃ t rs, applyMove m s = .next t ∧ t.params = s.params ∧ t.inbox = s.inbox ∧ t.responses = s.responses ++ rs ∧
      rs.length = if m.answered then 1 else 0 := by
  cases m with
  | command c =>
    obtain ⟨u, r, hrun, hparams, -, hresponses, hinbox, -⟩ := runCommand_eq_answer c s
    exact ⟨_, [r], hrun, hparams, hinbox, congrArg (· ++ [r]) hresponses, rfl⟩
  | write j v =>
    obtain ⟨hj, -⟩ : j < s.params.nchunk ∧ v.toNat < 2 ^ s.cap := by simpa [HostMove.possible] using h
    exact ⟨_, [], hostWrite_of_lt v hj, rfl, rfl, (List.append_nil _).symm, rfl⟩
  | reset => exact ⟨s, [], rfl, rfl, rfl, (List.append_nil _).symm, rfl⟩
  | commandThenReset c =>
    obtain ⟨u, r, hrun, -⟩ := runCommand_eq_answer c s
    exact ⟨_, [], abandonCommand_of_runCommand hrun, rfl, rfl, (List.append_nil _).symm, rfl⟩

/-- `applyMove_of_possible` for a step. -/
theorem step_of_possible {s : State} {m : HostMove} {rest : List HostMove} (hinbox : s.inbox = m :: rest)
    (h : s.HostPossible) :
    ∃ t rs, step s = .next t ∧ t.params = s.params ∧ t.inbox = rest ∧ t.HostPossible ∧
      t.responses = s.responses ++ rs ∧ rs.length = if m.answered then 1 else 0 := by
  obtain ⟨hm, hrest⟩ : m.possible s.params = true ∧ rest.all (HostMove.possible s.params) = true := by
    simpa only [State.HostPossible, hinbox, List.all_cons, Bool.and_eq_true] using h
  obtain ⟨t, rs, hmove, hparams, hinbox', hresponses, hlength⟩ :=
    applyMove_of_possible (s := { s with inbox := rest }) hm
  have hpossible : t.HostPossible := by rwa [State.HostPossible, hparams, hinbox']
  exact ⟨t, rs, (step_cons hinbox).trans hmove, hparams, hinbox', hpossible, hresponses, hlength⟩

/-- Settles O23: an idle step changes nothing, and a move that exists goes on and leaves the others possible. -/
theorem possibleMovesNeverStop : Obligations.PossibleMovesNeverStop := by
  unfold Obligations.PossibleMovesNeverStop
  intro s h
  cases hinbox : s.inbox with
  | nil => exact ⟨s, step_nil hinbox, h⟩
  | cons m rest =>
    obtain ⟨t, -, hstep, -, -, hpossible, -⟩ := step_of_possible hinbox h
    exact ⟨t, hstep, hpossible⟩

theorem run_succ {s t : State} (h : step s = .next t) (k : Nat) : core.run (k + 1) s = core.run k t := by
  simp only [Host.Core.run, core, h]

/-- Settles O24: by induction on the moves to come, each step taking one and answering it if it is to be answered. -/
theorem wholeProgramIsAnswered : Obligations.WholeProgramIsAnswered := by
  unfold Obligations.WholeProgramIsAnswered
  intro s h
  generalize hinbox : s.inbox = moves
  induction moves generalizing s with
  | nil => exact ⟨s, [], rfl, hinbox, rfl, (List.append_nil _).symm, rfl⟩
  | cons m rest ih =>
    obtain ⟨u, rs, hstep, hparams, hinbox', hpossible, hresponses, hlength⟩ := step_of_possible hinbox h
    obtain ⟨t, rs', hrun, hover, hparams', hresponses', hlength'⟩ := ih u hpossible hinbox'
    refine ⟨t, rs ++ rs', (run_succ hstep rest.length).trans hrun, hover, hparams'.trans hparams, ?_, ?_⟩
    · rw [hresponses', hresponses, List.append_assoc]
    · rw [List.length_append, hlength, hlength', List.countP_cons, Nat.add_comm]

end Sys2Proof.Machine
